-- ==== Sys2Proof/Word.lean ====
section
/-! DEFINITION. The machine word and the byte (spec/00_scope.md R5, R10). -/

namespace Sys2Proof

/-- A word: "a signed 32-bit integer; the universal unit of memory, register value, and
instruction field" (00_scope.md R5). Its signed value is `toInt`. -/
abbrev Word := BitVec 32

/-- A byte of the network extension, an integer 0..255 (00_scope.md R10, 10_state.md R31). -/
abbrev Byte := BitVec 8

end Sys2Proof
end

