-- ==== Sys2Proof/Config.lean ====
section
/-! DEFINITION. The implementation parameters of the core (spec/00_scope.md R2, R6): every one a
named argument. Their default values are in Machine/Defaults.lean. The spec leaves no value of the
machine free (93_implementation_defined.md, end of part 1), so there is no opaque constant here. -/

namespace Sys2Proof

/-- `OPCODE_MAP` (00_scope.md R6): the opcode word of each mnemonic. -/
structure OpcodeMap where
  load    : Word
  store   : Word
  add     : Word
  sub     : Word
  jmp     : Word
  halt    : Word
  send    : Word
  receive : Word
deriving DecidableEq, Repr

/-- `RECV_CAPACITY_SOURCE` (43_network.md R123): RECEIVE's capacity is operand2 itself
(`OPERAND`), or the register that operand2 names (`REGISTER`). -/
inductive RecvCapacitySource where
  | operand
  | register
deriving DecidableEq, Repr

/-- The parameters of 00_scope.md R6, fixed for a session. -/
structure Config where
  /-- `NUM_REGISTERS`: number of general registers. -/
  numRegisters : Nat
  /-- `MEMORY_SIZE`: number of memory words. -/
  memorySize : Nat
  /-- `NET_BUF_CAP`: Network Buffer capacity in bytes. -/
  netBufCap : Nat
  /-- `NET_EXT`: true for `CBVM-net`, false for `CBVM-base` (00_scope.md R2). -/
  netExt : Bool
  /-- `OPCODE_MAP`. -/
  opcodeMap : OpcodeMap
  /-- `RECV_CAPACITY_SOURCE`. -/
  recvCapacitySource : RecvCapacitySource
deriving DecidableEq, Repr

end Sys2Proof
end

