-- ==== Sys2Proof/Machine/Defaults.lean ====
section
/-! DEFINITION. The default values of the parameters (spec/00_scope.md R6; 92_eei_decisions.md D1,
D2, D9), and the one value the model chooses: NET_EXT at reset (log 2). -/

namespace Sys2Proof.Machine

/-- The default `OPCODE_MAP` (30_encoding.md R65, decision D1). -/
def defaultOpcodeMap : OpcodeMap where
  load    := 0
  store   := 1
  add     := 2
  sub     := 3
  jmp     := 4
  halt    := 5
  send    := 6
  receive := 7

/-- The document's sizes and the default choices, for a given `NET_EXT`, which has no default
(00_scope.md R6, decisions D2, D3, D9). -/
def documentConfig (netExt : Bool) : Config where
  numRegisters       := 8
  memorySize         := 256
  netBufCap          := 256
  netExt             := netExt
  opcodeMap          := defaultOpcodeMap
  recvCapacitySource := .operand

/-- The configuration of `State.reset` and of `decodeTableWord`: the defaults with the network
extension enabled, so that every row of the opcode table runs (DESIGN CHOICE, log 2; unsafe). -/
def defaultConfig : Config := documentConfig true

end Sys2Proof.Machine
end

