-- ==== Sys2Proof/Syntax.lean ====
section
/-! DEFINITION. The instructions: one constructor per row of spec/opcode_table.json, in its order.
Both operand words are kept whole in every constructor, used or not (30_encoding.md R60 to R62). -/

namespace Sys2Proof

/-- The mnemonics of the opcode table (30_encoding.md R65). -/
inductive Mnemonic where
  | load | store | add | sub | jmp | halt | send | receive
deriving DecidableEq, Repr

/-- A decoded instruction with its operand words (30_encoding.md R61). -/
inductive Instr where
  /-- LOAD reg, imm (40_data_movement.md R90). -/
  | load (reg imm : Word)
  /-- STORE reg, addr (40_data_movement.md R92). -/
  | store (reg addr : Word)
  /-- ADD regA, regB (41_alu.md R100). -/
  | add (regA regB : Word)
  /-- SUB regA, regB (41_alu.md R101). -/
  | sub (regA regB : Word)
  /-- JMP addr, unused (42_control.md R110). -/
  | jmp (addr unused : Word)
  /-- HALT unused, unused (42_control.md R112). -/
  | halt (unused1 unused2 : Word)
  /-- SEND reg, size (43_network.md R122). -/
  | send (reg size : Word)
  /-- RECEIVE regDst, regBuf (43_network.md R125). -/
  | receive (regDst regBuf : Word)
deriving DecidableEq, Repr

/-- The mnemonic of an instruction. -/
def Instr.mnemonic : Instr → Mnemonic
  | .load _ _    => .load
  | .store _ _   => .store
  | .add _ _     => .add
  | .sub _ _     => .sub
  | .jmp _ _     => .jmp
  | .halt _ _    => .halt
  | .send _ _    => .send
  | .receive _ _ => .receive

/-- The word after the opcode word. -/
def Instr.operand1 : Instr → Word
  | .load a _    => a
  | .store a _   => a
  | .add a _     => a
  | .sub a _     => a
  | .jmp a _     => a
  | .halt a _    => a
  | .send a _    => a
  | .receive a _ => a

/-- The last word of the instruction. -/
def Instr.operand2 : Instr → Word
  | .load _ b    => b
  | .store _ b   => b
  | .add _ b     => b
  | .sub _ b     => b
  | .jmp _ b     => b
  | .halt _ b    => b
  | .send _ b    => b
  | .receive _ b => b

/-- The instruction of a mnemonic and its two operand words. -/
def Mnemonic.instr : Mnemonic → Word → Word → Instr
  | .load, a, b    => .load a b
  | .store, a, b   => .store a b
  | .add, a, b     => .add a b
  | .sub, a, b     => .sub a b
  | .jmp, a, b     => .jmp a b
  | .halt, a, b    => .halt a b
  | .send, a, b    => .send a b
  | .receive, a, b => .receive a b

end Sys2Proof
end

