-- ==== Sys2Proof/WellFormed.lean ====
section
/-! DEFINITION. Which instructions a configuration has, and which configurations the spec admits.
Operand values are never ill-formed: a checked operand is legal or faults when it executes
(30_encoding.md R72), so its range is a matter of the meaning, not of this file. -/

namespace Sys2Proof

/-- `Enabled(NET_EXT)` (30_encoding.md R66), in the order of the opcode table. -/
def enabled (netExt : Bool) : List Mnemonic :=
  [.load, .store, .add, .sub, .jmp, .halt] ++ (if netExt then [.send, .receive] else [])

/-- An instruction is well formed for a configuration that enables its mnemonic. -/
abbrev Instr.WellFormed (c : Config) (i : Instr) : Prop :=
  i.mnemonic ∈ enabled c.netExt

/-- The eight values of an opcode map, in the order of the opcode table. -/
def OpcodeMap.values (m : OpcodeMap) : List Word :=
  [m.load, m.store, m.add, m.sub, m.jmp, m.halt, m.send, m.receive]

/-- "`OPCODE_MAP` is injective and maps into non-negative words" (00_scope.md R6). -/
abbrev OpcodeMap.WellFormed (m : OpcodeMap) : Prop :=
  m.values.Pairwise (· ≠ ·) ∧ m.values.all (fun v => 0 ≤ v.toInt) = true

/-- The constraints of 00_scope.md R6 on the parameters. The upper bound of `MEMORY_SIZE` is the one
under which 10_state.md R24 says that `pc + 3` is a word (DEDUCED, log 8; safe). -/
abbrev Config.WellFormed (c : Config) : Prop :=
  2 ≤ c.numRegisters ∧ 3 ≤ c.memorySize ∧ c.memorySize ≤ 2147483647 ∧ c.opcodeMap.WellFormed

end Sys2Proof
end

