-- ==== Sys2Proof/Decode.lean ====
section
/-! DEFINITION. The decoder, total on any words and rejecting by name, and the encoder
(spec/30_encoding.md R60, R65, R66, R72). -/

namespace Sys2Proof

/-- Why a sequence of words is no instruction. -/
inductive DecodeReject where
  /-- The opcode word is not the value of an enabled mnemonic (30_encoding.md R66, R72). The step
  turns it into the fault UNKNOWN_OPCODE (R67). -/
  | unknownOpcode (opcode : Word)
  /-- Fewer than three words are left (30_encoding.md R60: "exactly three words long"). Only
  `decodeWords` raises it: the core's fetch reads three words or faults. -/
  | truncated
deriving DecidableEq, Repr

/-- `OPCODE_MAP(m)` (30_encoding.md R65). -/
def OpcodeMap.value (o : OpcodeMap) : Mnemonic → Word
  | .load    => o.load
  | .store   => o.store
  | .add     => o.add
  | .sub     => o.sub
  | .jmp     => o.jmp
  | .halt    => o.halt
  | .send    => o.send
  | .receive => o.receive

/-- `decode(opcode)` (30_encoding.md R66): the enabled mnemonic whose value is the whole opcode word.
If a map that breaks R6 gave two mnemonics one value, the first in table order is taken (DESIGN
CHOICE, log 12; safe). -/
def decodeOpcode (c : Config) (opcode : Word) : Option Mnemonic :=
  (enabled c.netExt).find? fun m => c.opcodeMap.value m == opcode

/-- Decode the three words of an instruction (30_encoding.md R60, R66, R72). -/
def decode (c : Config) (opcode a b : Word) : Except DecodeReject Instr :=
  match decodeOpcode c opcode with
  | some m => .ok (m.instr a b)
  | none   => .error (.unknownOpcode opcode)

/-- Decode the first instruction of a word stream and return the rest (00_scope.md R8). -/
def decodeWords (c : Config) : List Word → Except DecodeReject (Instr × List Word)
  | op :: a :: b :: rest =>
    match decode c op a b with
    | .ok i    => .ok (i, rest)
    | .error e => .error e
  | _ => .error .truncated

/-- The three words of an instruction (30_encoding.md R60, R81). -/
def encode (c : Config) (i : Instr) : List Word :=
  [c.opcodeMap.value i.mnemonic, i.operand1, i.operand2]

/-- The words of an instruction whose bits are `w`, numbered as spec/opcode_table.json numbers them:
bit 0 is the least significant bit of the opcode word, operand1 is bits 63..32 and operand2 bits
95..64; the bits from `nbits` up are 0. -/
def tableWords (nbits w : Nat) : List Word :=
  let v := w % 2 ^ nbits
  [BitVec.ofNat 32 v, BitVec.ofNat 32 (v / 2 ^ 32), BitVec.ofNat 32 (v / 2 ^ 64)]

/-- What the decoder reads, under the default configuration, from an instruction of the opcode
table given by its bits. -/
def decodeTableWord (nbits w : Nat) : Option Instr :=
  match decodeWords Machine.defaultConfig (tableWords nbits w) with
  | .ok (i, _) => some i
  | .error _   => none

end Sys2Proof
end

