-- ==== Sys2Proof/Machine/State.lean ====
section
/-! DEFINITION. The state of the core (spec/10_state.md), its value at the start of a session, and the
reasons a step can stop. -/

namespace Sys2Proof.Machine

/-- The run status (10_state.md R27). -/
inductive RunStatus where
  | running
  | halted
  | faulted
deriving DecidableEq, Repr

/-- The fault kinds of 60_exceptions.md R141, in the order of their codes. -/
inductive FaultKind where
  | none
  | fetchOutOfBounds
  | unknownOpcode
  | registerIndexOutOfBounds
  | memoryAddressOutOfBounds
  | registerBytesOutOfBounds
  | netPayloadTooLarge
  | netReceiveBufferTooSmall
deriving DecidableEq, Repr

/-- A fault about to be raised: its kind and the offending word (60_exceptions.md R141). -/
structure Trap where
  kind  : FaultKind
  value : Word
deriving DecidableEq, Repr

/-- The Network Buffer: `Empty` or `Holding(p)`; its size field is the length of `p`
(10_state.md R31). -/
inductive NetBuffer where
  | empty
  | holding (payload : List Byte)
deriving DecidableEq, Repr

/-- The general registers `x[0], x[1], …` in index order (10_state.md R20). -/
abbrev RegFile := List Word

/-- Memory as a list of byte cells in one canonical form: byte `k` of word `memory[a]` is the cell of
key `4 * a + k`. The spec's memory has no byte addressing (20_memory.md R40, R44) and every operation
of the model moves a whole word, so the split cannot be observed (DESIGN CHOICE, log 3; safe). -/
abbrev Memory := List Host.Cell

/-- The three words one fetch reads; they live within one step (10_state.md R32). -/
structure Fetched where
  opcode   : Word
  operand1 : Word
  operand2 : Word
deriving DecidableEq, Repr

/-- The whole state of the core (10_state.md R34). -/
structure State where
  /-- The configuration of the session, the model's own field: no step writes it (00_scope.md R6; DESIGN
  CHOICE, log 1; safe). -/
  cfg : Config
  /-- The general registers (10_state.md R20). -/
  regs : RegFile
  /-- The memory (10_state.md R30). -/
  memory : Memory
  /-- The program counter (10_state.md R23). -/
  pc : Word
  /-- The run status (10_state.md R27). -/
  status : RunStatus
  /-- Fault record: the kind (10_state.md R28). -/
  faultKind : FaultKind
  /-- Fault record: the instruction offset of the faulting instruction (10_state.md R28). -/
  faultPc : Word
  /-- Fault record: the offending word (10_state.md R28). -/
  faultValue : Word
  /-- True from the first step on (10_state.md R33). -/
  started : Bool
  /-- The Network Buffer (10_state.md R31); always empty when `NET_EXT = false` (DESIGN
  CHOICE, log 4; safe). -/
  netbuf : NetBuffer
deriving DecidableEq, Repr

/-- Why `step` answers no next state. The core's own faults are NEXT states with `status = Faulted`
(60_exceptions.md R144), not these. -/
inductive Fault where
  /-- Raised by `step` alone, from a state whose status is Halted or Faulted: "no step exists from them"
  (60_exceptions.md R145; 93_implementation_defined.md U17: stuck by design). Safe: the model stops
  where the spec has no step (DESIGN CHOICE, log 6). -/
  | noStep (status : RunStatus)
deriving DecidableEq, Repr

/-- Why the model gives no meaning. No instruction of this core is refused. -/
inductive Refusal where
  /-- Reserved for an arm of `exec` without a meaning; raised by nobody here. Safe. -/
  | notModelled (mnemonic : String)
  /-- Raised by the load port after the first step: "a `load` after the first step has no meaning and is
  refused by the model" (70_reset_and_hazards.md R165). Safe. -/
  | loadAfterStart
deriving DecidableEq, Repr

/-- The state at the start of a session with configuration `c`, before any load (10_state.md R34,
70_reset_and_hazards.md R160). -/
def State.initial (c : Config) : State where
  cfg        := c
  regs       := List.replicate c.numRegisters 0
  memory     := []
  pc         := 0
  status     := .running
  faultKind  := .none
  faultPc    := 0
  faultValue := 0
  started    := false
  netbuf     := .empty

/-- The machine right after reset, under the default configuration (DESIGN CHOICE for `NET_EXT`, log 2;
unsafe). -/
def State.reset : State := State.initial defaultConfig

end Sys2Proof.Machine
end

