-- ==== Sys2Proof/Machine/Words.lean ====
section
/-! DEFINITION. The notation of spec/00_scope.md R9 and R10: wrapping, unsigned reading, bit slices,
bytes of a word. -/

namespace Sys2Proof.Machine

/-- `wrap32(v)`: the word congruent to `v` modulo 2^32 (00_scope.md R9). -/
def wrap32 (v : Int) : Word := BitVec.ofInt 32 v

/-- `u32(w)`: the unsigned reading of a word (00_scope.md R9). -/
def u32 (w : Word) : Nat := w.toNat

/-- `w[hi:lo]` as a natural number (00_scope.md R10). -/
def bitSlice (w : Word) (hi lo : Nat) : Nat := u32 w / 2 ^ lo % 2 ^ (hi - lo + 1)

/-- `zext_N(v)`: the low `n` bits of `v`, unsigned (00_scope.md R10). -/
def zextN (n v : Nat) : Int := ((v % 2 ^ n : Nat) : Int)

/-- `sext_N(v)`: the low `n` bits of `v` as a two's-complement number (00_scope.md R10). -/
def sextN (n v : Nat) : Int :=
  if 2 * (v % 2 ^ n) < 2 ^ n then zextN n v else zextN n v - 2 ^ n

/-- `byte_k(w) = w[8k+7:8k]` (00_scope.md R10). -/
def byteOf (w : Word) (k : Nat) : Byte := BitVec.ofNat 8 (bitSlice w (8 * k + 7) (8 * k))

/-- `le32(b0, b1, b2, b3)`, `b0` the least significant byte (00_scope.md R10). -/
def le32 (b0 b1 b2 b3 : Byte) : Word :=
  wrap32 (sextN 32 (b0.toNat + 2 ^ 8 * b1.toNat + 2 ^ 16 * b2.toNat + 2 ^ 24 * b3.toNat))

/-- A word with its byte `k` (0 to 3) replaced by `v` (43_network.md R120). -/
def putByte (w : Word) (k : Nat) (v : Byte) : Word :=
  le32 (if k = 0 then v else byteOf w 0) (if k = 1 then v else byteOf w 1)
    (if k = 2 then v else byteOf w 2) (if k = 3 then v else byteOf w 3)

end Sys2Proof.Machine
end

