-- ==== Sys2Proof/Machine/Operands.lean ====
section
/-! DEFINITION. The operand checks (spec/30_encoding.md R61, R62, R70, R71; 43_network.md R121, R124).
A check answers `none` when it passes and the fault it raises when it does not. Comparisons are on
unbounded integers, so a negative word is out of range (R62). Immediates, jump targets and unused
operands have no check. -/

namespace Sys2Proof.Machine

/-- `0 <= w < n` on integers (30_encoding.md R62). -/
abbrev InRange (n : Nat) (w : Word) : Prop := 0 ≤ w.toInt ∧ w.toInt < (n : Int)

/-- A register-index operand (30_encoding.md R70). -/
def checkRegister (c : Config) (r : Word) : Option Trap :=
  if InRange c.numRegisters r then none else some ⟨.registerIndexOutOfBounds, r⟩

/-- A checked memory-address operand (30_encoding.md R71). -/
def checkAddress (c : Config) (a : Word) : Option Trap :=
  if InRange c.memorySize a then none else some ⟨.memoryAddressOutOfBounds, a⟩

/-- A byte count is not negative (43_network.md R121 check 2). -/
def checkByteCount (n : Word) : Option Trap :=
  if 0 ≤ n.toInt then none else some ⟨.registerBytesOutOfBounds, n⟩

/-- A payload of `n` bytes fits the Network Buffer (43_network.md R121 check 3). -/
def checkPayload (c : Config) (n : Word) : Option Trap :=
  if n.toInt ≤ (c.netBufCap : Int) then none else some ⟨.netPayloadTooLarge, n⟩

/-- `count` bytes from register `r` stay inside RB (43_network.md R121 check 4, R124 check 4);
`value` is the word the fault reports. -/
def checkRegisterBytes (c : Config) (r : Word) (count : Int) (value : Word) : Option Trap :=
  if 4 * r.toInt + count ≤ 4 * (c.numRegisters : Int) then none
  else some ⟨.registerBytesOutOfBounds, value⟩

/-- The length of a payload as a word (43_network.md R124, R125; DEDUCED, log 11; safe). -/
def payloadLength (q : List Byte) : Word := wrap32 q.length

/-- The capacity is at least the payload's length (43_network.md R124 check 3). -/
def checkCapacity (capacity : Int) (q : List Byte) : Option Trap :=
  if (q.length : Int) ≤ capacity then none else some ⟨.netReceiveBufferTooSmall, payloadLength q⟩

/-- RECEIVE's checks (3) and (4): they apply to a held payload only (43_network.md R124). -/
def checkPending (c : Config) (capacity : Int) (r : Word) : NetBuffer → List (Option Trap)
  | .empty     => []
  | .holding q => [checkCapacity capacity q, checkRegisterBytes c r q.length (payloadLength q)]

end Sys2Proof.Machine
end

