-- ==== Sys2Proof/Machine/Ops.lean ====
section
/-! DEFINITION. The shared operations: memory ports, registers and their byte view, fetch, entering
Halted and Faulted, the Network Interface's contract, and running a meaning behind its checks. -/

namespace Sys2Proof.Machine

/-! ### Memory (20_memory.md R40 to R47) -/

/-- What a byte that the memory does not list reads as: memory is "zero-initialized" (10_state.md
R30). -/
def unlistedByte : Byte := 0

/-- The byte of key `k`. -/
def Memory.readByte : Memory → Nat → Byte
  | [], _ => unlistedByte
  | (k', v) :: rest, k => if k = k' then v else Memory.readByte rest k

/-- Set the byte of key `k`, keeping the canonical form. -/
def Memory.writeByte : Memory → Nat → Byte → Memory
  | [], k, v => if v = unlistedByte then [] else [(k, v)]
  | (k', v') :: rest, k, v =>
    if k < k' then
      if v = unlistedByte then (k', v') :: rest else (k, v) :: (k', v') :: rest
    else if k = k' then
      if v = unlistedByte then rest else (k, v) :: rest
    else (k', v') :: Memory.writeByte rest k v

/-- The canonical form: keys strictly rising, no entry equal to what an unlisted byte reads as. -/
abbrev Memory.wf (m : Memory) : Prop :=
  m.Pairwise (fun e f => e.1 < f.1) ∧ ∀ e ∈ m, e.2 ≠ unlistedByte

/-- Every listed byte belongs to a word of index below `n`. -/
abbrev Memory.Within (n : Nat) (m : Memory) : Prop := ∀ e ∈ m, e.1 < 4 * n

/-- `MemRead(a, 1)`: the word at index `a` (20_memory.md R42). -/
def Memory.readWord (m : Memory) (a : Nat) : Word :=
  le32 (m.readByte (4 * a)) (m.readByte (4 * a + 1)) (m.readByte (4 * a + 2)) (m.readByte (4 * a + 3))

/-- `MemWrite(a, 1, v)`: set the word at index `a` (20_memory.md R43). -/
def Memory.writeWord (m : Memory) (a : Nat) (v : Word) : Memory :=
  (((m.writeByte (4 * a) (byteOf v 0)).writeByte (4 * a + 1) (byteOf v 1)).writeByte
    (4 * a + 2) (byteOf v 2)).writeByte (4 * a + 3) (byteOf v 3)

/-- Write words at consecutive indices from `a` (70_reset_and_hazards.md R164). -/
def Memory.writeWords : Memory → Nat → List Word → Memory
  | m, _, [] => m
  | m, a, v :: vs => Memory.writeWords (m.writeWord a v) (a + 1) vs

/-- `memory[a]`. -/
def State.word (s : State) (a : Nat) : Word := s.memory.readWord a

/-- `memory[a] <- v` (20_memory.md R43). -/
def State.setWord (s : State) (a : Nat) (v : Word) : State :=
  { s with memory := s.memory.writeWord a v }

/-! ### Registers and their byte view RB (10_state.md R20; 43_network.md R120) -/

/-- `x[i]`; 0 beyond the register file, which no check lets an instruction reach (DESIGN CHOICE, log 13;
safe). -/
def RegFile.read (f : RegFile) (i : Nat) : Word := f.getD i 0

/-- `x[i] <- v`. -/
def RegFile.write (f : RegFile) (i : Nat) (v : Word) : RegFile := f.set i v

/-- `RB[j]`: little-endian within a register, registers in index order. -/
def RegFile.readByte (f : RegFile) (j : Nat) : Byte := byteOf (f.read (j / 4)) (j % 4)

/-- `RB[j] <- v`. -/
def RegFile.writeByte (f : RegFile) (j : Nat) (v : Byte) : RegFile :=
  f.write (j / 4) (putByte (f.read (j / 4)) (j % 4) v)

/-- `[RB[j], …, RB[j + n - 1]]`. -/
def RegFile.readBytes (f : RegFile) (j : Nat) : Nat → List Byte
  | 0     => []
  | n + 1 => f.readByte j :: RegFile.readBytes f (j + 1) n

/-- `RB[j + k] <- q[k]` for each `k`, in order. -/
def RegFile.writeBytes : RegFile → Nat → List Byte → RegFile
  | f, _, []      => f
  | f, j, v :: vs => RegFile.writeBytes (f.writeByte j v) (j + 1) vs

/-- `x[i]` of a state. -/
def State.reg (s : State) (i : Nat) : Word := s.regs.read i

/-- `x[i] <- v` in a state. -/
def State.setReg (s : State) (i : Nat) (v : Word) : State :=
  { s with regs := s.regs.write i v }

/-- Write bytes into RB from index `j`. -/
def State.setRegBytes (s : State) (j : Nat) (q : List Byte) : State :=
  { s with regs := s.regs.writeBytes j q }

/-! ### Program counter and fetch (30_encoding.md R63, R64) -/

/-- `pc <- target`. -/
def State.setPc (s : State) (target : Word) : State := { s with pc := target }

/-- The first effect of every step (30_encoding.md R74; 10_state.md R33). -/
def State.start (s : State) : State := { s with started := true }

/-- Whether the window `p, p+1, p+2` is inside memory, on unbounded integers (30_encoding.md R63). -/
abbrev FetchInBounds (c : Config) (p : Word) : Prop :=
  0 ≤ p.toInt ∧ p.toInt + 2 < (c.memorySize : Int)

/-- The three words at the program counter. -/
def State.window (s : State) : Fetched where
  opcode   := s.word s.pc.toNat
  operand1 := s.word (s.pc.toNat + 1)
  operand2 := s.word (s.pc.toNat + 2)

/-- Fetch: read the window and advance `pc` by 3, or the fault of 30_encoding.md R64. -/
def State.fetch (s : State) : Except Trap (Fetched × State) :=
  if FetchInBounds s.cfg s.pc then .ok (s.window, s.setPc (s.pc + 3))
  else .error ⟨.fetchOutOfBounds, s.pc⟩

/-- The instruction offset `p` of the executing instruction: a meaning runs after the fetch, so
`pc = p + 3` (30_encoding.md R74; DESIGN CHOICE, log 5; safe). -/
def State.instructionOffset (s : State) : Word := s.pc - 3

/-! ### Halt and fault entry (60_exceptions.md R143, R144). There is no return from either (R145). -/

/-- `halt`. -/
def State.halt (s : State) : State := { s with status := .halted }

/-- `raise Fault(kind, value)` in the step that started at `p` (60_exceptions.md R144). -/
def State.raiseAt (s : State) (p : Word) (t : Trap) : State :=
  { s with status := .faulted, faultKind := t.kind, faultPc := p, faultValue := t.value }

/-- `raise Fault(kind, value)` by the executing instruction, after its fetch. -/
def State.raise (s : State) (t : Trap) : State := s.raiseAt s.instructionOffset t

/-- Run an effect behind its checks: the first check that fails is the fault raised, with no write;
when all pass the effect happens (30_encoding.md R69; 00_scope.md R11). A check that passes is
`none`. -/
def State.guarded (s : State) : List (Option Trap) → (State → State) → State
  | [], effect             => effect s
  | some t :: _, _         => s.raise t
  | none :: checks, effect => State.guarded s checks effect

/-! ### The Network Interface (60_exceptions.md R152 to R154) -/

/-- The bytes a Network Buffer holds, none when empty. -/
def NetBuffer.payload : NetBuffer → List Byte
  | .empty     => []
  | .holding q => q

/-- The size field of the Network Buffer (10_state.md R31). -/
def NetBuffer.size (b : NetBuffer) : Nat := b.payload.length

/-- `send(bytes)` of the interface: `none` where it fails, otherwise the buffer after it
(60_exceptions.md R153). -/
def netSend (cap : Nat) (bytes : List Byte) (_before : NetBuffer) : Option NetBuffer :=
  if bytes.length > cap then none else some (.holding bytes)

/-- `receive(capacity)` of the interface: `none` where it fails, otherwise the bytes returned and the
buffer after it (60_exceptions.md R154). -/
def netReceive (capacity : Int) : NetBuffer → Option (List Byte × NetBuffer)
  | .empty     => some ([], .empty)
  | .holding q => if capacity < q.length then none else some (q, .empty)

/-- `netbuf <- b`. -/
def State.setNetbuf (s : State) (b : NetBuffer) : State := { s with netbuf := b }

/-! ### Codes of the host readout (10_state.md R27; 60_exceptions.md R141; decision D7) -/

/-- The code of a run status. -/
def RunStatus.code : RunStatus → Word
  | .running => 0
  | .halted  => 1
  | .faulted => 2

/-- The code of a fault kind. -/
def FaultKind.code : FaultKind → Word
  | .none                     => 0
  | .fetchOutOfBounds         => 1
  | .unknownOpcode            => 2
  | .registerIndexOutOfBounds => 3
  | .memoryAddressOutOfBounds => 4
  | .registerBytesOutOfBounds => 5
  | .netPayloadTooLarge       => 6
  | .netReceiveBufferTooSmall => 7

end Sys2Proof.Machine
end

