-- ==== Sys2Proof/Machine/Arithmetic.lean ====
section
/-! DEFINITION. ADD and SUB (spec/41_alu.md): exact on integers, then wrapped (R102). They write no flag:
the core has none (10_state.md R25). -/

namespace Sys2Proof.Machine

/-- ADD: `x[regA] <- wrap32(x[regA] + x[regB])` (41_alu.md R100, R102). -/
def execAdd (regA regB : Word) (s : State) : Host.Outcome State Fault Refusal :=
  .next (s.guarded [checkRegister s.cfg regA, checkRegister s.cfg regB] fun s =>
    s.setReg regA.toNat (wrap32 ((s.reg regA.toNat).toInt + (s.reg regB.toNat).toInt)))

/-- SUB: `x[regA] <- wrap32(x[regA] - x[regB])` (41_alu.md R101, R102). -/
def execSub (regA regB : Word) (s : State) : Host.Outcome State Fault Refusal :=
  .next (s.guarded [checkRegister s.cfg regA, checkRegister s.cfg regB] fun s =>
    s.setReg regA.toNat (wrap32 ((s.reg regA.toNat).toInt - (s.reg regB.toNat).toInt)))

end Sys2Proof.Machine
end

