-- ==== Sys2Proof/Machine/Control.lean ====
section
/-! DEFINITION. JMP and HALT (spec/42_control.md). -/

namespace Sys2Proof.Machine

/-- JMP: `pc <- addr`, with no check of the target (42_control.md R110). -/
def execJmp (addr _unused : Word) (s : State) : Host.Outcome State Fault Refusal :=
  .next (s.setPc addr)

/-- HALT: enter Halted; `pc` keeps the fetch's `p + 3` (42_control.md R112). -/
def execHalt (_unused1 _unused2 : Word) (s : State) : Host.Outcome State Fault Refusal :=
  .next s.halt

end Sys2Proof.Machine
end

