-- ==== Sys2Proof/Machine/DataMovement.lean ====
section
/-! DEFINITION. LOAD and STORE (spec/40_data_movement.md). A meaning runs on the state after the fetch,
with `pc = p + 3`. -/

namespace Sys2Proof.Machine

/-- LOAD: `x[reg] <- imm` (40_data_movement.md R90). -/
def execLoad (reg imm : Word) (s : State) : Host.Outcome State Fault Refusal :=
  .next (s.guarded [checkRegister s.cfg reg] fun s => s.setReg reg.toNat imm)

/-- STORE: `memory[addr] <- x[reg]` (40_data_movement.md R92). -/
def execStore (reg addr : Word) (s : State) : Host.Outcome State Fault Refusal :=
  .next (s.guarded [checkRegister s.cfg reg, checkAddress s.cfg addr] fun s =>
    s.setWord addr.toNat (s.reg reg.toNat))

end Sys2Proof.Machine
end

