-- ==== Sys2Proof/Machine/Network.lean ====
section
/-! DEFINITION. SEND and RECEIVE (spec/43_network.md). The decoder yields them only when
`NET_EXT = true` (30_encoding.md R66). -/

namespace Sys2Proof.Machine

/-- SEND: the Network Buffer holds `size` bytes of RB from `4 * reg` (43_network.md R121, R122). -/
def execSend (reg size : Word) (s : State) : Host.Outcome State Fault Refusal :=
  .next (s.guarded
    [checkRegister s.cfg reg, checkByteCount size, checkPayload s.cfg size,
      checkRegisterBytes s.cfg reg size.toInt size] fun s =>
    s.setNetbuf (.holding (s.regs.readBytes (4 * reg.toNat) size.toNat)))

/-- RECEIVE's capacity (43_network.md R123). -/
def recvCapacity (s : State) (regBuf : Word) : Int :=
  match s.cfg.recvCapacitySource with
  | .operand  => regBuf.toInt
  | .register => (s.reg regBuf.toNat).toInt

/-- RECEIVE: the payload goes into RB from `4 * regBuf`, the buffer empties, and the byte count is
written last to `regDst` (43_network.md R124, R125). -/
def execReceive (regDst regBuf : Word) (s : State) : Host.Outcome State Fault Refusal :=
  .next (s.guarded
    ([checkRegister s.cfg regDst, checkRegister s.cfg regBuf] ++
      checkPending s.cfg (recvCapacity s regBuf) regBuf s.netbuf) fun s =>
    ((s.setRegBytes (4 * regBuf.toNat) s.netbuf.payload).setNetbuf .empty).setReg regDst.toNat
      (payloadLength s.netbuf.payload))

end Sys2Proof.Machine
end

