-- ==== Sys2Proof/Machine/Dispatch.lean ====
section
/-! DEFINITION. One arm per instruction (spec/30_encoding.md R74). -/

namespace Sys2Proof.Machine

/-- Execute a decoded instruction on the state after its fetch. -/
def exec (i : Instr) (s : State) : Host.Outcome State Fault Refusal :=
  match i with
  | .load reg imm => Sys2Proof.Machine.execLoad reg imm s
  | .store reg addr => Sys2Proof.Machine.execStore reg addr s
  | .add regA regB => Sys2Proof.Machine.execAdd regA regB s
  | .sub regA regB => Sys2Proof.Machine.execSub regA regB s
  | .jmp addr unused => Sys2Proof.Machine.execJmp addr unused s
  | .halt unused1 unused2 => Sys2Proof.Machine.execHalt unused1 unused2 s
  | .send reg size => Sys2Proof.Machine.execSend reg size s
  | .receive regDst regBuf => Sys2Proof.Machine.execReceive regDst regBuf s

end Sys2Proof.Machine
end

