-- ==== Sys2Proof/Machine/Step.lean ====
section
/-! DEFINITION. One step of the core: fetch, decode, execute (spec/30_encoding.md R74). -/

namespace Sys2Proof.Machine

/-- One step. From a running state it always answers a next state, which may be Halted or Faulted
(00_scope.md R12); from a Halted or Faulted state no step exists (60_exceptions.md R145). -/
def step (s : State) : Host.Outcome State Fault Refusal :=
  match s.status with
  | .running =>
    match s.start.fetch with
    | .error t => .next (s.start.raiseAt s.pc t)
    | .ok (f, s') =>
      match decode s'.cfg f.opcode f.operand1 f.operand2 with
      | .ok i    => exec i s'
      | .error _ => .next (s'.raise ⟨.unknownOpcode, f.opcode⟩)
  | status => .fault (.noStep status)

/-- `s` with the instruction whose bits are `w` (numbered as spec/opcode_table.json does, the bits from
`nbits` up zero) in the three memory words at `pc`. Where the window at `pc` leaves memory there is no
place to fetch from, and `s` is returned as it is. It stands for the host's load (DESIGN CHOICE,
log 7; safe). -/
def State.withFetchWord (s : State) (nbits w : Nat) : State :=
  if FetchInBounds s.cfg s.pc then
    { s with memory := s.memory.writeWords s.pc.toNat (tableWords nbits w) }
  else s

end Sys2Proof.Machine
end

