-- ==== Sys2Proof/Machine/Assembler.lean ====
section
/-! DEFINITION. The text assembler (spec/30_encoding.md R75 to R82) and the printer of listings (R83).
A text is a list of characters. The assembler is outside the core: no step calls it (R75). -/

namespace Sys2Proof.Machine

/-- Errors met before execution (00_scope.md R15; 70_reset_and_hazards.md R166). -/
inductive SourceError where
  /-- The first malformed line, counted from 1 (30_encoding.md R82). -/
  | parseError (line : Nat)
  /-- "program exceeds memory capacity" (30_encoding.md R82; 70_reset_and_hazards.md R164). -/
  | loaderError
deriving DecidableEq, Repr

/-- Split a text at newlines; `cur` is the current line, reversed. Text after the last newline is a
line only when it is not empty (30_encoding.md R76). -/
def splitLinesFrom : List Char → List Char → List (List Char)
  | [], cur      => if cur.isEmpty then [] else [cur.reverse]
  | ch :: cs, cur =>
    if ch = '\n' then cur.reverse :: splitLinesFrom cs [] else splitLinesFrom cs (ch :: cur)

/-- The lines of a text (30_encoding.md R76). -/
def splitLines (text : List Char) : List (List Char) := splitLinesFrom text []

/-- Space, tab and carriage return (30_encoding.md R77). -/
def isBlank (ch : Char) : Bool := ch == ' ' || ch == '\t' || ch == '\r'

/-- Split a line at runs of whitespace; `cur` is the current token, reversed. -/
def tokensFrom : List Char → List Char → List (List Char)
  | [], cur      => if cur.isEmpty then [] else [cur.reverse]
  | ch :: cs, cur =>
    if isBlank ch then
      if cur.isEmpty then tokensFrom cs [] else cur.reverse :: tokensFrom cs []
    else tokensFrom cs (ch :: cur)

/-- The tokens of a line (30_encoding.md R77). -/
def tokens (line : List Char) : List (List Char) := tokensFrom line []

/-- The name of a mnemonic as the opcode table spells it. -/
def mnemonicName : Mnemonic → List Char
  | .load    => "LOAD".toList
  | .store   => "STORE".toList
  | .add     => "ADD".toList
  | .sub     => "SUB".toList
  | .jmp     => "JMP".toList
  | .halt    => "HALT".toList
  | .send    => "SEND".toList
  | .receive => "RECEIVE".toList

/-- The mnemonic of a token, by exact match among the six that the assembler recognizes, whatever
`NET_EXT` is (30_encoding.md R79). -/
def parseMnemonic (token : List Char) : Option Mnemonic :=
  (enabled false).find? fun m => mnemonicName m == token

/-- The value of a decimal digit. -/
def digitValue (ch : Char) : Option Nat :=
  if '0' ≤ ch ∧ ch ≤ '9' then some (ch.toNat - '0'.toNat) else none

/-- Read digits after a prefix of value `acc`. -/
def parseDigits : List Char → Nat → Option Nat
  | [], acc      => some acc
  | ch :: cs, acc =>
    match digitValue ch with
    | some d => parseDigits cs (10 * acc + d)
    | none   => none

/-- One or more decimal digits (30_encoding.md R80). -/
def parseNat (cs : List Char) : Option Nat := if cs.isEmpty then none else parseDigits cs 0

/-- An optional sign and one or more digits (30_encoding.md R80). -/
def parseInt (cs : List Char) : Option Int :=
  match cs with
  | []        => none
  | ch :: rest =>
    if ch = '+' then (parseNat rest).map fun n => (n : Int)
    else if ch = '-' then (parseNat rest).map fun n => -(n : Int)
    else (parseNat cs).map fun n => (n : Int)

/-- An `<int>` token whose value is a word (30_encoding.md R80). -/
def parseWord (token : List Char) : Option Word :=
  match parseInt token with
  | some v => if -2147483648 ≤ v ∧ v ≤ 2147483647 then some (BitVec.ofInt 32 v) else none
  | none   => none

/-- The instruction of a line, by the grammar of 30_encoding.md R78; the line `HALT` has two zero
operands (R81). -/
def parseLine (line : List Char) : Option Instr :=
  match tokens line with
  | [m] => if m = mnemonicName .halt then some (.halt 0 0) else none
  | [m, i, j] =>
    match parseMnemonic m, parseWord i, parseWord j with
    | some m, some a, some b => some (m.instr a b)
    | _, _, _                => none
  | _ => none

/-- Assemble lines, the first of which has number `n`: three words a line in order (30_encoding.md
R81), or the first failing line (R82). -/
def assembleLines (c : Config) : Nat → List (List Char) → Except SourceError (List Word)
  | _, [] => .ok []
  | n, line :: rest =>
    match parseLine line with
    | none   => .error (.parseError n)
    | some i =>
      match assembleLines c (n + 1) rest with
      | .ok ws   => .ok (encode c i ++ ws)
      | .error e => .error e

/-- The assembler (30_encoding.md R75, R82). A parse error is reported before an overlong output
(DEDUCED, log 9; safe). -/
def assemble (c : Config) (text : List Char) : Except SourceError (List Word) :=
  match assembleLines c 1 (splitLines text) with
  | .error e => .error e
  | .ok ws   => if ws.length ≤ c.memorySize then .ok ws else .error .loaderError

/-! ### The printer (30_encoding.md R83) -/

/-- The character of a digit below 10. -/
def digitChar (d : Nat) : Char := Char.ofNat ('0'.toNat + d)

/-- `n` in decimal, for `n` of at most `fuel` digits. -/
def printDigits : Nat → Nat → List Char
  | 0, _        => []
  | fuel + 1, n => if n < 10 then [digitChar n] else printDigits fuel (n / 10) ++ [digitChar (n % 10)]

/-- A word in decimal, a minus sign before a negative one (DEDUCED, log 10; safe). A word has at most
ten digits. -/
def printWord (w : Word) : List Char :=
  if w.toInt < 0 then '-' :: printDigits 10 w.toInt.natAbs else printDigits 10 w.toInt.natAbs

/-- `<MNEMONIC> <operand1> <operand2>` (30_encoding.md R83). -/
def printInstr (i : Instr) : List Char :=
  mnemonicName i.mnemonic ++ ' ' :: (printWord i.operand1 ++ ' ' :: printWord i.operand2)

/-- A listing: one instruction a line. -/
def printListing : List Instr → List Char
  | []      => []
  | i :: is => printInstr i ++ '\n' :: printListing is

end Sys2Proof.Machine
end

