-- ==== Sys2Proof/Machine/HostPort.lean ====
section
/-! DEFINITION. What the host does with the core (spec/70_reset_and_hazards.md R160 to R172): create a
session, load, run, read out. -/

namespace Sys2Proof.Machine

/-- Create a session: the configuration in, the state of 10_state.md R34 out (70_reset_and_hazards.md
R160, R172). -/
def createSession (c : Config) : State := State.initial c

/-- What a call of the load port answers. -/
inductive LoadOutcome where
  /-- Loaded: the count and the state with the words in memory. -/
  | loaded (count : Nat) (s : State)
  /-- LoaderError "program exceeds memory capacity": the state is unchanged. -/
  | loaderError
  /-- The port is closed: the first step has been taken. -/
  | refused (r : Refusal)
deriving DecidableEq, Repr

/-- `load(words, offset)` (70_reset_and_hazards.md R164, R165): all the words or none. -/
def State.load (s : State) (words : List Word) (offset : Int) : LoadOutcome :=
  if s.started then .refused .loadAfterStart
  else if 0 ≤ offset ∧ offset + words.length ≤ (s.cfg.memorySize : Int) then
    .loaded words.length { s with memory := s.memory.writeWords offset.toNat words }
  else .loaderError

/-- Make the loads of a launch on a session not yet started; any LoaderError aborts the launch, and
then there is no state to step (70_reset_and_hazards.md R165, R166). -/
def loadAll : State → List (List Word × Int) → Except SourceError State
  | s, [] => .ok s
  | s, (words, offset) :: rest =>
    match s.load words offset with
    | .loaded _ s' => loadAll s' rest
    | _            => .error .loaderError

/-- Create a session and load it (70_reset_and_hazards.md R169). -/
def launch (c : Config) (loads : List (List Word × Int)) : Except SourceError State :=
  loadAll (createSession c) loads

/-- Assemble a text and load it at an offset in a new session; a ParseError aborts the run before
execution (70_reset_and_hazards.md R166). -/
def launchText (c : Config) (text : List Char) (offset : Int) : Except SourceError State :=
  match assemble c text with
  | .ok ws   => launch c [(ws, offset)]
  | .error e => .error e

/-- The state that `run()` has reached after at most `n` steps, stopping where no step exists
(70_reset_and_hazards.md R170). -/
def State.runFor : Nat → State → State
  | 0, s => s
  | n + 1, s =>
    match step s with
    | .next s' => State.runFor n s'
    | _        => s

/-- What `run()` under fuel answers. -/
inductive RunReport where
  /-- The run ended, Halted or Faulted, at this state (60_exceptions.md R158). -/
  | ended (s : State)
  /-- "out of fuel", "which is not a state of the core" (42_control.md R114): it carries none. -/
  | outOfFuel
deriving DecidableEq, Repr

/-- `run()` under fuel (70_reset_and_hazards.md R170; 42_control.md R114): the end of the run when `fuel`
steps reach it, "out of fuel" when the core is then still running. -/
def State.run (fuel : Nat) (s : State) : RunReport :=
  match (s.runFor fuel).status with
  | .running => .outOfFuel
  | .halted  => .ended (s.runFor fuel)
  | .faulted => .ended (s.runFor fuel)

/-- What the host reads (70_reset_and_hazards.md R171). -/
structure Readout where
  regs       : List Word
  memory     : List Word
  pc         : Word
  status     : Word
  faultKind  : Word
  faultPc    : Word
  faultValue : Word
  /-- `netbuf` when present: only with `NET_EXT = true` (10_state.md R31). -/
  netbuf     : Option NetBuffer
deriving DecidableEq, Repr

/-- The words of memory from index `a`, `n` of them. -/
def State.wordsFrom (s : State) (a : Nat) : Nat → List Word
  | 0     => []
  | n + 1 => s.word a :: State.wordsFrom s (a + 1) n

/-- The readout of a state, statuses and kinds as their codes (10_state.md R27, R28). -/
def State.readout (s : State) : Readout where
  regs       := s.regs
  memory     := s.wordsFrom 0 s.cfg.memorySize
  pc         := s.pc
  status     := s.status.code
  faultKind  := s.faultKind.code
  faultPc    := s.faultPc
  faultValue := s.faultValue
  netbuf     := if s.cfg.netExt then some s.netbuf else none

end Sys2Proof.Machine
end

