-- ==== Sys2Proof/Safety.lean ====
section
/-! DEFINITION. The vocabulary of the claims: the invariant of the machine, what a state leaves
unchanged, and how a run ends (spec/60_exceptions.md R158). -/

namespace Sys2Proof.Machine

/-! ### The invariant -/

/-- As many registers as the configuration says (10_state.md R20). -/
abbrev State.RegsSized (s : State) : Prop := s.regs.length = s.cfg.numRegisters

/-- Memory is in canonical form and lists nothing outside the address space (20_memory.md R41). -/
abbrev State.MemoryOk (s : State) : Prop := s.memory.wf ∧ s.memory.Within s.cfg.memorySize

/-- The fault record is written exactly when the core has faulted (10_state.md R28, 60_exceptions.md
R143), and the network kinds occur only with `NET_EXT = true` (60_exceptions.md R141). -/
abbrev State.FaultRecordOk (s : State) : Prop :=
  (s.status = .faulted ↔ s.faultKind ≠ .none) ∧
  (s.status ≠ .faulted → s.faultPc = 0 ∧ s.faultValue = 0) ∧
  (s.cfg.netExt = false →
    s.faultKind ∉ [.registerBytesOutOfBounds, .netPayloadTooLarge, .netReceiveBufferTooSmall])

/-- Where an ended run leaves `pc`: after a halt or an execute-time fault one instruction past an
instruction inside memory (42_control.md R112; 30_encoding.md R68), after a fetch fault at the
unfetched value, which is outside the bound (30_encoding.md R64). -/
abbrev State.EndPcOk (s : State) : Prop :=
  (s.status = .halted → 3 ≤ s.pc.toInt ∧ s.pc.toInt ≤ s.cfg.memorySize) ∧
  (s.status = .faulted →
    if s.faultKind = .fetchOutOfBounds then
      s.faultPc = s.pc ∧ s.faultValue = s.pc ∧ ¬ FetchInBounds s.cfg s.pc
    else s.pc = s.faultPc + 3 ∧ FetchInBounds s.cfg s.faultPc)

/-- The Network Buffer holds no more than its capacity and than the registers can supply, and nothing
at all without the extension (10_state.md R31, 43_network.md R121). -/
abbrev State.NetbufOk (s : State) : Prop :=
  s.netbuf.size ≤ s.cfg.netBufCap ∧ s.netbuf.size ≤ 4 * s.cfg.numRegisters ∧
  (s.cfg.netExt = false → s.netbuf = .empty)

/-- Before the first step everything but memory stands at its start value (10_state.md R33, R34). -/
abbrev State.StartOk (s : State) : Prop :=
  s.started = false → s = { State.initial s.cfg with memory := s.memory }

/-- The invariant of the machine. -/
abbrev State.Inv (s : State) : Prop :=
  s.cfg.WellFormed ∧ s.RegsSized ∧ s.MemoryOk ∧ s.FaultRecordOk ∧ s.EndPcOk ∧ s.NetbufOk ∧ s.StartOk

/-! ### What is left unchanged -/

/-- `t` agrees with `s` on every register but those of `changed`. -/
def SameRegsBut (changed : Nat → Prop) (s t : State) : Prop :=
  t.regs.length = s.regs.length ∧ ∀ r, ¬ changed r → t.reg r = s.reg r

/-- `t` agrees with `s` on every memory word but those of `changed`. -/
def SameWordsBut (changed : Nat → Prop) (s t : State) : Prop :=
  ∀ a, ¬ changed a → t.word a = s.word a

/-- `t` agrees with `s` on every register. -/
def SameRegs (s t : State) : Prop := SameRegsBut (fun _ => False) s t

/-- `t` agrees with `s` on every memory word. -/
def SameWords (s t : State) : Prop := SameWordsBut (fun _ => False) s t

/-- `t` agrees with `s` on the run status and the fault record. -/
def SameControl (s t : State) : Prop :=
  t.status = s.status ∧ t.faultKind = s.faultKind ∧ t.faultPc = s.faultPc ∧
  t.faultValue = s.faultValue

/-- `t` agrees with `s` on everything but registers, memory, `pc` and the Network Buffer. -/
def SameSession (s t : State) : Prop := t.cfg = s.cfg ∧ t.started = s.started ∧ SameControl s t

/-- `t` is `s` faulted with trap `k`, instruction offset `p` and value `v`, and nothing else changed
(60_exceptions.md R144; 30_encoding.md R68). -/
def FaultedFrom (s : State) (k : FaultKind) (p v : Word) (t : State) : Prop :=
  t.status = .faulted ∧ t.faultKind = k ∧ t.faultPc = p ∧ t.faultValue = v ∧
  t.cfg = s.cfg ∧ t.regs = s.regs ∧ t.memory = s.memory ∧ t.pc = s.pc ∧ t.started = s.started ∧
  t.netbuf = s.netbuf

/-! ### Which instruction a step runs -/

/-- The fetch at `s` is in bounds and its three words decode to `i`. -/
def State.Fetches (s : State) (i : Instr) : Prop :=
  FetchInBounds s.cfg s.pc ∧
  decode s.cfg s.window.opcode s.window.operand1 s.window.operand2 = .ok i

/-- The fetch at `s` is in bounds and its opcode word is no enabled opcode (30_encoding.md R66). -/
def State.FetchesUnknown (s : State) : Prop :=
  FetchInBounds s.cfg s.pc ∧ ∀ m ∈ enabled s.cfg.netExt, s.cfg.opcodeMap.value m ≠ s.window.opcode

/-- The next step runs SEND or RECEIVE. -/
def State.FetchesNetwork (s : State) : Prop :=
  ∃ a b, s.Fetches (.send a b) ∨ s.Fetches (.receive a b)

/-- The state on which the meaning of the instruction at `s.pc` runs: `started` set, `pc` advanced
(30_encoding.md R74). -/
def State.afterFetch (s : State) : State := s.start.setPc (s.pc + 3)

/-! ### Register-only arithmetic (41_alu.md R103) -/

/-- A LOAD, ADD or SUB whose register operands are valid. -/
def RegisterArithmetic (c : Config) : Instr → Prop
  | .load r _      => InRange c.numRegisters r
  | .add a b       => InRange c.numRegisters a ∧ InRange c.numRegisters b
  | .sub a b       => InRange c.numRegisters a ∧ InRange c.numRegisters b
  | .store _ _     => False
  | .jmp _ _       => False
  | .halt _ _      => False
  | .send _ _      => False
  | .receive _ _   => False

/-- The registers as unbounded integers after one LOAD, ADD or SUB: nothing wraps here. -/
def closedFormStep (x : Nat → Int) : Instr → Nat → Int
  | .load r imm    => Function.update x r.toNat imm.toInt
  | .add a b       => Function.update x a.toNat (x a.toNat + x b.toNat)
  | .sub a b       => Function.update x a.toNat (x a.toNat - x b.toNat)
  | .store _ _     => x
  | .jmp _ _       => x
  | .halt _ _      => x
  | .send _ _      => x
  | .receive _ _   => x

/-- The registers as unbounded integers after a sequence of them: the closed form. -/
def closedForm : List Instr → (Nat → Int) → Nat → Int
  | [], x      => x
  | i :: is, x => closedForm is (closedFormStep x i)

/-- Execute instructions in a row, `none` where one answers no next state. -/
def execAll : List Instr → State → Option State
  | [], s => some s
  | i :: is, s =>
    match exec i s with
    | .next t => execAll is t
    | _       => none

/-! ### Runs -/

/-- A run from `s` reaches the state `t` and takes no step from there: it ends at `t`
(60_exceptions.md R158). -/
def EndsAt (s t : State) : Prop := t.status ≠ .running ∧ ∃ n, s.runFor n = t

/-- The run ends cleanly. -/
def EndsCleanly (s : State) : Prop := ∃ t, EndsAt s t ∧ t.status = .halted

/-- The run ends faulted. -/
def EndsFaulted (s : State) : Prop := ∃ t, EndsAt s t ∧ t.status = .faulted

/-- The run never ends (42_control.md R114). -/
def RunsForever (s : State) : Prop := ∀ n, (s.runFor n).status = .running

end Sys2Proof.Machine
end

