-- ==== Sys2Proof/Certificates/Slice0/Obligations.lean ====
section
/-! DEFINITION. The statements about the core for the provers. A statement about `exec` is about the
state after the fetch, where `pc = p + 3` for the instruction offset `p` (30_encoding.md R74, log 5). -/

open Sys2Proof Sys2Proof.Machine

/-! ### Encoding and decoding -/

/-- Decoding the encoding of a well-formed instruction gives it back and leaves the rest of the
stream, for every opcode map that the spec admits (00_scope.md R6), with and without the network
extension, and every operand word. Opcode values are decision D1 of the spec, so they stay a parameter
here. -/
def Obligations.DecodeOfEncodeIsIdentity : Prop :=
  ∀ (c : Config) (i : Instr) (rest : List Word), c.opcodeMap.WellFormed → i.WellFormed c →
    decodeWords c (encode c i ++ rest) = .ok (i, rest)

/-- The other direction, for every configuration: three words that decode are the encoding of what
they decode to, which is well formed; so no two triples decode to one instruction. -/
def Obligations.EncodeOfDecodeIsIdentity : Prop :=
  ∀ (c : Config) (opcode a b : Word) (i : Instr), decode c opcode a b = .ok i →
    encode c i = [opcode, a, b] ∧ i.WellFormed c

/-- An opcode word is rejected, by name, exactly when it is the value of no enabled mnemonic, whatever
the operands are; without the network extension the values of SEND and RECEIVE are rejected
(30_encoding.md, section 3, an inference the spec marks as its own). -/
def Obligations.DecodeRejectsExactlyUnknownOpcodes : Prop :=
  (∀ (c : Config) (opcode a b : Word) (e : DecodeReject), decode c opcode a b = .error e ↔
    e = .unknownOpcode opcode ∧ ∀ m ∈ enabled c.netExt, c.opcodeMap.value m ≠ opcode) ∧
  (∀ (c : Config) (a b : Word), c.opcodeMap.WellFormed → c.netExt = false →
    decode c c.opcodeMap.send a b = .error (.unknownOpcode c.opcodeMap.send) ∧
    decode c c.opcodeMap.receive a b = .error (.unknownOpcode c.opcodeMap.receive))

/-- The opcode values of the table under the default map (decision D1 of 92_eei_decisions.md), with
every operand word; 99, -1 and 261 are no opcodes; SEND and RECEIVE need `NET_EXT`. -/
def Obligations.DefaultOpcodeWordsDecode : Prop :=
  (∀ (x : Bool) (a b : Word),
    decode (documentConfig x) 0 a b = .ok (.load a b) ∧
    decode (documentConfig x) 1 a b = .ok (.store a b) ∧
    decode (documentConfig x) 2 a b = .ok (.add a b) ∧
    decode (documentConfig x) 3 a b = .ok (.sub a b) ∧
    decode (documentConfig x) 4 a b = .ok (.jmp a b) ∧
    decode (documentConfig x) 5 a b = .ok (.halt a b) ∧
    decode (documentConfig x) 99 a b = .error (.unknownOpcode 99) ∧
    decode (documentConfig x) (-1) a b = .error (.unknownOpcode (-1)) ∧
    decode (documentConfig x) 261 a b = .error (.unknownOpcode 261)) ∧
  (∀ a b : Word,
    decode (documentConfig true) 6 a b = .ok (.send a b) ∧
    decode (documentConfig true) 7 a b = .ok (.receive a b) ∧
    decode (documentConfig false) 6 a b = .error (.unknownOpcode 6) ∧
    decode (documentConfig false) 7 a b = .error (.unknownOpcode 7))

/-! ### The step -/

/-- The step of 30_encoding.md R74 from a running state: a window out of bounds faults with `pc` kept; an
opcode that is not enabled faults after the advance; otherwise the step is `exec` of the decoded
instruction on the state with `started` set and `pc` advanced by 3. -/
def Obligations.StepIsFetchDecodeExecute : Prop :=
  ∀ s : State, s.status = .running →
    (¬ FetchInBounds s.cfg s.pc →
      ∃ t, step s = .next t ∧ FaultedFrom s.start .fetchOutOfBounds s.pc s.pc t) ∧
    (s.FetchesUnknown →
      ∃ t, step s = .next t ∧ FaultedFrom s.afterFetch .unknownOpcode s.pc s.window.opcode t) ∧
    (∀ i, s.Fetches i → step s = exec i s.afterFetch)

/-- When the words at the program counter decode to an instruction, it is well formed and the step is
`exec` of it; the state it runs on has `pc` advanced by 3 and `started` set, and is otherwise `s`. -/
def Obligations.StepRunsTheDecodedInstruction : Prop :=
  ∀ (s : State) (i : Instr), s.status = .running → s.Fetches i →
    i.WellFormed s.cfg ∧ step s = exec i s.afterFetch ∧
    s.afterFetch.pc = s.pc + 3 ∧ s.afterFetch.started = true ∧ s.afterFetch.regs = s.regs ∧
    s.afterFetch.memory = s.memory ∧ s.afterFetch.netbuf = s.netbuf ∧ s.afterFetch.cfg = s.cfg ∧
    SameControl s s.afterFetch

/-- The fetch of 30_encoding.md R63: from a running state it succeeds exactly when `0 <= p` and
`p + 2 < MEMORY_SIZE` on integers; it then reads the three words in order and advances `pc` by 3, and the
step decodes and executes what was read on the state so advanced. -/
def Obligations.FetchReadsThreeWordsInBounds : Prop :=
  ∀ s : State, s.status = .running →
    ((∃ f t, s.fetch = .ok (f, t)) ↔ 0 ≤ s.pc.toInt ∧ s.pc.toInt + 2 < (s.cfg.memorySize : Int)) ∧
    ∀ f t, s.fetch = .ok (f, t) →
      f = ⟨s.word s.pc.toNat, s.word (s.pc.toNat + 1), s.word (s.pc.toNat + 2)⟩ ∧
      t = s.setPc (s.pc + 3) ∧
      ∀ i, decode s.cfg f.opcode f.operand1 f.operand2 = .ok i → step s = exec i t.start

/-- An unknown opcode faults with the opcode word as the value and `fault_pc = p`, leaves `pc = p + 3`,
changes no register, memory word or Network Buffer state, and no further step follows
(30_encoding.md R67). -/
def Obligations.UnknownOpcodeFaultsAfterAdvance : Prop :=
  ∀ s : State, s.status = .running → s.FetchesUnknown →
    ∃ t, step s = .next t ∧ t.status = .faulted ∧ t.faultKind = .unknownOpcode ∧
      t.faultValue = s.window.opcode ∧ t.faultPc = s.pc ∧ t.pc = s.pc + 3 ∧
      t.regs = s.regs ∧ SameWords s t ∧ t.netbuf = s.netbuf ∧ t.cfg = s.cfg ∧
      ∀ u, step t ≠ .next u

/-- A step exists exactly from a running state; from an ended one the model answers `noStep` (its own
name for it, log 6) and never a refusal. -/
def Obligations.StepExistsExactlyWhileRunning : Prop :=
  ∀ s : State, ((∃ t, step s = .next t) ↔ s.status = .running) ∧
    (s.status ≠ .running → step s = .fault (.noStep s.status)) ∧ ∀ r, step s ≠ .refused r

/-! ### Data movement -/

/-- LOAD (40_data_movement.md R90): its encoding; the whole immediate goes to the named register and
nothing else changes; an index out of range faults with the operand, and the all-zero triple is
`LOAD 0 0` under the default map (the map is decision D1 of the spec, `pc` after a fault D5). -/
def Obligations.LoadWritesImmediateOrFaults : Prop :=
  (∀ (c : Config) (reg imm : Word), c.opcodeMap.WellFormed →
    decode c c.opcodeMap.load reg imm = .ok (.load reg imm)) ∧
  (∀ x : Bool, decode (documentConfig x) 0 0 0 = .ok (.load 0 0)) ∧
  (∀ (s : State) (reg imm : Word), s.RegsSized → InRange s.cfg.numRegisters reg →
    ∃ t, exec (.load reg imm) s = .next t ∧ t.reg reg.toNat = imm ∧
      SameRegsBut (· = reg.toNat) s t ∧ SameWords s t ∧ t.pc = s.pc ∧ t.netbuf = s.netbuf ∧
      SameSession s t) ∧
  (∀ (s : State) (reg imm p : Word), s.pc = p + 3 → ¬ InRange s.cfg.numRegisters reg →
    ∃ t, exec (.load reg imm) s = .next t ∧ FaultedFrom s .registerIndexOutOfBounds p reg t)

/-- STORE (40_data_movement.md R92): its encoding; the register's whole value goes to the word at the
address operand, itself the effective address, and every other word is unchanged; operand1 is checked
before operand2 (that order is decision D6 of the spec, `pc` after a fault D5). -/
def Obligations.StoreWritesWordOrFaults : Prop :=
  (∀ (c : Config) (reg addr : Word), c.opcodeMap.WellFormed →
    decode c c.opcodeMap.store reg addr = .ok (.store reg addr)) ∧
  (∀ (s : State) (reg addr : Word), s.MemoryOk →
    InRange s.cfg.numRegisters reg → InRange s.cfg.memorySize addr →
    ∃ t, exec (.store reg addr) s = .next t ∧ t.word addr.toNat = s.reg reg.toNat ∧
      SameWordsBut (· = addr.toNat) s t ∧ t.MemoryOk ∧ t.regs = s.regs ∧ t.pc = s.pc ∧
      t.netbuf = s.netbuf ∧ SameSession s t) ∧
  (∀ (s : State) (reg addr p : Word), s.pc = p + 3 → ¬ InRange s.cfg.numRegisters reg →
    ∃ t, exec (.store reg addr) s = .next t ∧ FaultedFrom s .registerIndexOutOfBounds p reg t) ∧
  (∀ (s : State) (reg addr p : Word), s.pc = p + 3 → InRange s.cfg.numRegisters reg →
    ¬ InRange s.cfg.memorySize addr →
    ∃ t, exec (.store reg addr) s = .next t ∧ FaultedFrom s .memoryAddressOutOfBounds p addr t)

/-- A STORE may write a word of its own window: the executing instruction is not changed, and any later
fetch reads the stored word (20_memory.md section 5, an inference the spec marks as its own). -/
def Obligations.StoreIsSeenByTheNextFetch : Prop :=
  ∀ (s : State) (reg addr : Word), s.Inv → s.status = .running → s.Fetches (.store reg addr) →
    InRange s.cfg.numRegisters reg → InRange s.cfg.memorySize addr →
    ∃ t, step s = .next t ∧ t.status = .running ∧ t.pc = s.pc + 3 ∧
      (∀ a, t.word a = if a = addr.toNat then s.reg reg.toNat else s.word a) ∧
      ∀ p : Word, p.toNat ≤ addr.toNat → addr.toNat ≤ p.toNat + 2 →
        (t.setPc p).window = ⟨
          if addr.toNat = p.toNat then s.reg reg.toNat else s.word p.toNat,
          if addr.toNat = p.toNat + 1 then s.reg reg.toNat else s.word (p.toNat + 1),
          if addr.toNat = p.toNat + 2 then s.reg reg.toNat else s.word (p.toNat + 2)⟩

/-! ### Arithmetic -/

/-- ADD (41_alu.md R100): its encoding; both registers are read before the wrapped sum is written to
regA; regA is checked before regB (decision D6 of the spec; `pc` after a fault is D5). -/
def Obligations.AddWritesWrappedSumOrFaults : Prop :=
  (∀ (c : Config) (a b : Word), c.opcodeMap.WellFormed → decode c c.opcodeMap.add a b = .ok (.add a b)) ∧
  (∀ (s : State) (a b : Word), s.RegsSized →
    InRange s.cfg.numRegisters a → InRange s.cfg.numRegisters b →
    ∃ t, exec (.add a b) s = .next t ∧
      t.reg a.toNat = wrap32 ((s.reg a.toNat).toInt + (s.reg b.toNat).toInt) ∧
      SameRegsBut (· = a.toNat) s t ∧ SameWords s t ∧ t.pc = s.pc ∧ t.netbuf = s.netbuf ∧
      SameSession s t) ∧
  (∀ (s : State) (a b p : Word), s.pc = p + 3 → ¬ InRange s.cfg.numRegisters a →
    ∃ t, exec (.add a b) s = .next t ∧ FaultedFrom s .registerIndexOutOfBounds p a t) ∧
  (∀ (s : State) (a b p : Word), s.pc = p + 3 → InRange s.cfg.numRegisters a →
    ¬ InRange s.cfg.numRegisters b →
    ∃ t, exec (.add a b) s = .next t ∧ FaultedFrom s .registerIndexOutOfBounds p b t)

/-- SUB (41_alu.md R101): its encoding; `x[regA] - x[regB]`, wrapped, goes to regA; equal operands clear
the register; faults as ADD (decisions D5 and D6 of the spec). -/
def Obligations.SubWritesWrappedDifferenceOrFaults : Prop :=
  (∀ (c : Config) (a b : Word), c.opcodeMap.WellFormed → decode c c.opcodeMap.sub a b = .ok (.sub a b)) ∧
  (∀ (s : State) (a b : Word), s.RegsSized →
    InRange s.cfg.numRegisters a → InRange s.cfg.numRegisters b →
    ∃ t, exec (.sub a b) s = .next t ∧
      t.reg a.toNat = wrap32 ((s.reg a.toNat).toInt - (s.reg b.toNat).toInt) ∧
      (a = b → t.reg a.toNat = 0) ∧
      SameRegsBut (· = a.toNat) s t ∧ SameWords s t ∧ t.pc = s.pc ∧ t.netbuf = s.netbuf ∧
      SameSession s t) ∧
  (∀ (s : State) (a b p : Word), s.pc = p + 3 → ¬ InRange s.cfg.numRegisters a →
    ∃ t, exec (.sub a b) s = .next t ∧ FaultedFrom s .registerIndexOutOfBounds p a t) ∧
  (∀ (s : State) (a b p : Word), s.pc = p + 3 → InRange s.cfg.numRegisters a →
    ¬ InRange s.cfg.numRegisters b →
    ∃ t, exec (.sub a b) s = .next t ∧ FaultedFrom s .registerIndexOutOfBounds p b t)

/-- The arithmetic law of 41_alu.md R102: the result of ADD and SUB is the word congruent to the exact
result modulo 2^32, and the unsigned readings add modulo 2^32. -/
def Obligations.ArithmeticWrapsModulo32Bits : Prop :=
  ∀ (s : State) (a b : Word), s.RegsSized → InRange s.cfg.numRegisters a →
    InRange s.cfg.numRegisters b →
    (∃ t, exec (.add a b) s = .next t ∧
      (t.reg a.toNat).toInt ≡ (s.reg a.toNat).toInt + (s.reg b.toNat).toInt [ZMOD 2 ^ 32] ∧
      u32 (t.reg a.toNat) = (u32 (s.reg a.toNat) + u32 (s.reg b.toNat)) % 2 ^ 32) ∧
    (∃ t, exec (.sub a b) s = .next t ∧
      (t.reg a.toNat).toInt ≡ (s.reg a.toNat).toInt - (s.reg b.toNat).toInt [ZMOD 2 ^ 32])

/-- The property quoted in 41_alu.md R103: after any sequence of LOAD, ADD and SUB with valid register
operands, each register is the wrapped closed form computed on unbounded integers, and nothing but
registers has changed. -/
def Obligations.RegisterArithmeticHasClosedForm : Prop :=
  ∀ (is : List Instr) (s : State), s.RegsSized → (∀ i ∈ is, RegisterArithmetic s.cfg i) →
    ∃ t, execAll is s = some t ∧
      (∀ r < s.cfg.numRegisters,
        t.reg r = wrap32 (closedForm is (fun k => (s.reg k).toInt) r)) ∧
      SameWords s t ∧ t.pc = s.pc ∧ t.netbuf = s.netbuf ∧ SameSession s t

/-! ### Control -/

/-- JMP (42_control.md R110): its encoding; `pc` becomes the operand whatever it is, operand2 has no
effect, nothing else changes; a target whose window is out of bounds faults at the next step with
`fault_pc`, the value and `pc` all the target; `JMP p` at offset `p` loops for ever. -/
def Obligations.JmpSetsPcAndFaultsAtTheNextFetch : Prop :=
  (∀ (c : Config) (addr unused : Word), c.opcodeMap.WellFormed →
    decode c c.opcodeMap.jmp addr unused = .ok (.jmp addr unused)) ∧
  (∀ (s : State) (addr unused : Word),
    ∃ t, exec (.jmp addr unused) s = .next t ∧ t.pc = addr ∧ t.regs = s.regs ∧ SameWords s t ∧
      t.netbuf = s.netbuf ∧ SameSession s t ∧ (∀ u, exec (.jmp addr u) s = .next t) ∧
      (s.status = .running → ¬ FetchInBounds s.cfg addr →
        ∃ u, step t = .next u ∧ u.status = .faulted ∧ u.faultKind = .fetchOutOfBounds ∧
          u.faultPc = addr ∧ u.faultValue = addr ∧ u.pc = addr)) ∧
  (∀ (s : State) (unused : Word), s.status = .running → s.Fetches (.jmp s.pc unused) → RunsForever s)

/-- HALT (42_control.md R112): its encoding, and the line `HALT` of the assembler with two zero operands;
the status becomes Halted and nothing else changes, `pc` keeping the `p + 3` of the fetch, whatever the
operands; where the window would pass the end the fetch faults and no HALT executes. -/
def Obligations.HaltEntersHalted : Prop :=
  (∀ (c : Config) (u v : Word), c.opcodeMap.WellFormed →
    decode c c.opcodeMap.halt u v = .ok (.halt u v)) ∧
  (∀ c : Config, parseLine ['H', 'A', 'L', 'T'] = some (.halt 0 0) ∧
    encode c (.halt 0 0) = [c.opcodeMap.halt, 0, 0]) ∧
  (∀ (s : State) (u v : Word),
    ∃ t, exec (.halt u v) s = .next t ∧ t.status = .halted ∧ t.pc = s.pc ∧ t.regs = s.regs ∧
      SameWords s t ∧ t.netbuf = s.netbuf ∧ t.cfg = s.cfg ∧ t.started = s.started ∧
      t.faultKind = s.faultKind ∧ t.faultPc = s.faultPc ∧ t.faultValue = s.faultValue ∧
      ∀ u' v', exec (.halt u' v') s = .next t) ∧
  (∀ (s : State) (u v : Word), s.status = .running → s.Fetches (.halt u v) →
    ∃ t, step s = .next t ∧ t.status = .halted ∧ t.pc = s.pc + 3) ∧
  (∀ s : State, s.status = .running → ¬ FetchInBounds s.cfg s.pc →
    ∃ t, step s = .next t ∧ t.status = .faulted ∧ t.faultKind = .fetchOutOfBounds)

/-- A step ends Halted exactly when the fetched instruction is a HALT: a HALT that is fetched always
halts (60_exceptions.md section 1, an inference the spec marks as its own). -/
def Obligations.HaltsExactlyOnFetchedHalt : Prop :=
  ∀ s t : State, step s = .next t → (t.status = .halted ↔ ∃ u v, s.Fetches (.halt u v))

/-- From a `pc` at or before the end of a zero-filled tail, with LOAD's opcode 0, the run ends in a
fetch fault at the first `q >= MEMORY_SIZE - 2` of `pc, pc + 3, …`, having set `x[0]` to 0 if it
executed anything and changed nothing else; with 256 words `q` is 255, 256 or 254 as `pc` is 0, 1 or 2
modulo 3 (42_control.md R113, an inference the spec marks as its own; D1 gives LOAD the value 0). -/
def Obligations.ZeroFilledTailEndsInFetchFault : Prop :=
  ∀ s : State, s.Inv → s.status = .running → s.cfg.opcodeMap.load = 0 → 0 ≤ s.pc.toInt →
    s.pc.toInt ≤ s.cfg.memorySize →
    (∀ a, s.pc.toNat ≤ a → a < s.cfg.memorySize → s.word a = 0) →
    ∃ t, EndsAt s t ∧ t.status = .faulted ∧ t.faultKind = .fetchOutOfBounds ∧ t.faultPc = t.pc ∧
      t.faultValue = t.pc ∧ (s.cfg.memorySize : Int) - 2 ≤ t.pc.toInt ∧
      t.pc.toInt ≤ s.cfg.memorySize ∧ s.pc.toInt ≤ t.pc.toInt ∧ t.pc.toInt % 3 = s.pc.toInt % 3 ∧
      (s.pc.toInt < t.pc.toInt → t.reg 0 = 0) ∧ SameRegsBut (· = 0) s t ∧
      (s.pc = t.pc → t.regs = s.regs) ∧ SameWords s t ∧ t.netbuf = s.netbuf ∧
      (s.cfg.memorySize = 256 → t.pc.toInt =
        if s.pc.toInt % 3 = 0 then 255 else if s.pc.toInt % 3 = 1 then 256 else 254)

/-! ### Network -/

/-- SEND, when its four checks pass: the buffer holds the `size` bytes of the byte view from `4 * reg`,
each register little-endian, replacing what it held; nothing else changes. The byte view is decision D8
of the spec and the checks D10 and D11. -/
def Obligations.SendHoldsRegisterBytes : Prop :=
  (∀ (c : Config) (reg size : Word), c.opcodeMap.WellFormed → c.netExt = true →
    decode c c.opcodeMap.send reg size = .ok (.send reg size)) ∧
  (∀ (s : State) (reg size : Word), InRange s.cfg.numRegisters reg → 0 ≤ size.toInt →
    size.toInt ≤ s.cfg.netBufCap → 4 * reg.toInt + size.toInt ≤ 4 * s.cfg.numRegisters →
    ∃ t q, exec (.send reg size) s = .next t ∧ t.netbuf = .holding q ∧ q.length = size.toNat ∧
      (∀ k (hk : k < q.length), q[k] =
        byteOf (s.reg ((4 * reg.toNat + k) / 4)) ((4 * reg.toNat + k) % 4)) ∧
      t.regs = s.regs ∧ SameWords s t ∧ t.pc = s.pc ∧ SameSession s t)

/-- SEND's faults in the order of 43_network.md section 2: the register index, a negative size, a size
above the buffer's capacity, a range outside the byte view (decisions D6, D7, D10, D11). -/
def Obligations.SendFaultsInOrder : Prop :=
  ∀ (s : State) (reg size p : Word), s.pc = p + 3 →
    (¬ InRange s.cfg.numRegisters reg → ∃ t, exec (.send reg size) s = .next t ∧
      FaultedFrom s .registerIndexOutOfBounds p reg t) ∧
    (InRange s.cfg.numRegisters reg → size.toInt < 0 → ∃ t, exec (.send reg size) s = .next t ∧
      FaultedFrom s .registerBytesOutOfBounds p size t) ∧
    (InRange s.cfg.numRegisters reg → 0 ≤ size.toInt → (s.cfg.netBufCap : Int) < size.toInt →
      ∃ t, exec (.send reg size) s = .next t ∧ FaultedFrom s .netPayloadTooLarge p size t) ∧
    (InRange s.cfg.numRegisters reg → 0 ≤ size.toInt → size.toInt ≤ s.cfg.netBufCap →
      4 * (s.cfg.numRegisters : Int) < 4 * reg.toInt + size.toInt →
      ∃ t, exec (.send reg size) s = .next t ∧ FaultedFrom s .registerBytesOutOfBounds p size t)

/-- RECEIVE, when its checks pass: the payload's bytes stand in the byte view from `4 * regBuf`, every
other byte of a register other than regDst is unchanged, regDst holds the byte count (written last), the
buffer is empty, nothing else changes; with an empty buffer the count is 0. Capacity source, byte view,
checks and the overlap are decisions D8 to D12 of the spec. -/
def Obligations.ReceiveTakesPayloadIntoRegisters : Prop :=
  (∀ (c : Config) (dst buf : Word), c.opcodeMap.WellFormed → c.netExt = true →
    decode c c.opcodeMap.receive dst buf = .ok (.receive dst buf)) ∧
  (∀ (s : State) (dst buf : Word) (q : List Byte), s.RegsSized → q = s.netbuf.payload →
    InRange s.cfg.numRegisters dst → InRange s.cfg.numRegisters buf →
    (s.netbuf = .holding q →
      (q.length : Int) ≤ (match s.cfg.recvCapacitySource with
        | .operand => buf.toInt
        | .register => (s.reg buf.toNat).toInt) ∧
      4 * buf.toInt + q.length ≤ 4 * s.cfg.numRegisters) →
    ∃ t, exec (.receive dst buf) s = .next t ∧ t.netbuf = .empty ∧
      t.reg dst.toNat = BitVec.ofNat 32 q.length ∧
      (∀ r k, r ≠ dst.toNat → k < 4 → byteOf (t.reg r) k =
        if 4 * buf.toNat ≤ 4 * r + k ∧ 4 * r + k < 4 * buf.toNat + q.length
        then q.getD (4 * r + k - 4 * buf.toNat) 0 else byteOf (s.reg r) k) ∧
      t.regs.length = s.regs.length ∧ SameWords s t ∧ t.pc = s.pc ∧ SameSession s t)

/-- RECEIVE's faults in the order of 43_network.md section 3: regDst, regBuf, then, only when a payload is
held, the capacity and the byte range; the buffer and the registers are unchanged (decisions D6, D7, D9
to D11). A payload of 2^32 bytes or more cannot be held (log 11), so the value is its length. -/
def Obligations.ReceiveFaultsInOrder : Prop :=
  ∀ (s : State) (dst buf p : Word), s.pc = p + 3 →
    (¬ InRange s.cfg.numRegisters dst → ∃ t, exec (.receive dst buf) s = .next t ∧
      FaultedFrom s .registerIndexOutOfBounds p dst t) ∧
    (InRange s.cfg.numRegisters dst → ¬ InRange s.cfg.numRegisters buf →
      ∃ t, exec (.receive dst buf) s = .next t ∧ FaultedFrom s .registerIndexOutOfBounds p buf t) ∧
    ∀ (q : List Byte) (cap : Int), s.netbuf = .holding q →
      cap = (match s.cfg.recvCapacitySource with
        | .operand => buf.toInt
        | .register => (s.reg buf.toNat).toInt) →
      InRange s.cfg.numRegisters dst → InRange s.cfg.numRegisters buf →
      (cap < q.length → ∃ t, exec (.receive dst buf) s = .next t ∧
        FaultedFrom s .netReceiveBufferTooSmall p (BitVec.ofNat 32 q.length) t) ∧
      ((q.length : Int) ≤ cap → 4 * (s.cfg.numRegisters : Int) < 4 * buf.toInt + q.length →
        ∃ t, exec (.receive dst buf) s = .next t ∧
          FaultedFrom s .registerBytesOutOfBounds p (BitVec.ofNat 32 q.length) t)

/-- SEND and RECEIVE follow the Network Interface's contract (60_exceptions.md section 3): a SEND that
does not fault leaves what `send` leaves, and `send` fails exactly where SEND faults as too large; a
RECEIVE that does not fault leaves the buffer, and counts the bytes, that `receive` gives, and `receive`
fails exactly where RECEIVE faults as too small (decision D10). -/
def Obligations.NetworkInstructionsRefineTheInterface : Prop :=
  (∀ (s : State) (reg size : Word), InRange s.cfg.numRegisters reg → 0 ≤ size.toInt →
    4 * reg.toInt + size.toInt ≤ 4 * s.cfg.numRegisters →
    ∃ t, exec (.send reg size) s = .next t ∧
      match netSend s.cfg.netBufCap (s.regs.readBytes (4 * reg.toNat) size.toNat) s.netbuf with
      | some b => t.netbuf = b ∧ t.status = s.status
      | none   => t.netbuf = s.netbuf ∧ t.status = .faulted ∧ t.faultKind = .netPayloadTooLarge) ∧
  (∀ (s : State) (dst buf : Word), s.RegsSized → InRange s.cfg.numRegisters dst →
    InRange s.cfg.numRegisters buf →
    4 * buf.toInt + s.netbuf.size ≤ 4 * s.cfg.numRegisters →
    ∃ t, exec (.receive dst buf) s = .next t ∧
      match netReceive (recvCapacity s buf) s.netbuf with
      | some (q, b) => t.netbuf = b ∧ t.status = s.status ∧ t.reg dst.toNat = BitVec.ofNat 32 q.length
      | none => t.netbuf = s.netbuf ∧ t.status = .faulted ∧ t.faultKind = .netReceiveBufferTooSmall)

/-- Round trip (43_network.md section 3, an inference the spec marks as its own): a payload that SEND
accepted, after any run of steps none of which runs a network instruction, is given back byte for byte
by a RECEIVE that passes its checks, in every register but the one that takes the count; the buffer is
then empty. -/
def Obligations.SendThenReceiveRoundTrip : Prop :=
  ∀ (s t u : State) (reg size dst buf : Word) (n : Nat),
    InRange s.cfg.numRegisters reg → 0 ≤ size.toInt → size.toInt ≤ s.cfg.netBufCap →
    4 * reg.toInt + size.toInt ≤ 4 * s.cfg.numRegisters →
    exec (.send reg size) s = .next t → (∀ k < n, ¬ (t.runFor k).FetchesNetwork) →
    u = t.runFor n → u.RegsSized →
    InRange s.cfg.numRegisters dst → InRange s.cfg.numRegisters buf →
    size.toInt ≤ recvCapacity u buf → 4 * buf.toInt + size.toInt ≤ 4 * s.cfg.numRegisters →
    ∃ v, exec (.receive dst buf) u = .next v ∧ v.netbuf = .empty ∧ v.reg dst.toNat = size ∧
      ∀ k < size.toNat, (4 * buf.toNat + k) / 4 ≠ dst.toNat →
        byteOf (v.reg ((4 * buf.toNat + k) / 4)) ((4 * buf.toNat + k) % 4) =
          byteOf (s.reg ((4 * reg.toNat + k) / 4)) ((4 * reg.toNat + k) % 4)

/-- The buffer is one slot: after a SEND that completes, what it held before is of no account; and
once a RECEIVE has completed, a second one with valid registers gets a count of 0 and changes no other
register (43_network.md section 3, 60_exceptions.md section 3). -/
def Obligations.BufferIsOneSlotDeliveredAtMostOnce : Prop :=
  (∀ (s t : State) (b : NetBuffer) (reg size : Word), exec (.send reg size) s = .next t →
    t.status ≠ .faulted →
    exec (.send reg size) (s.setNetbuf b) = .next t) ∧
  (∀ (s t : State) (dst buf dst' buf' : Word), s.RegsSized →
    exec (.receive dst buf) s = .next t → t.status ≠ .faulted →
    InRange s.cfg.numRegisters dst' → InRange s.cfg.numRegisters buf' →
    ∃ u, exec (.receive dst' buf') t = .next u ∧ u.reg dst'.toNat = 0 ∧ u.netbuf = .empty ∧
      SameRegsBut (· = dst'.toNat) t u)

/-! ### The whole machine -/

/-- At the start of a session every piece of state has the value of 70_reset_and_hazards.md R160, for
every configuration, with every register and memory word 0 (an empty buffer there is decision D13 of the
spec). -/
def Obligations.SessionStartsAtTheStatedValues : Prop :=
  ∀ c : Config, (createSession c).cfg = c ∧
    (createSession c).regs.length = c.numRegisters ∧ (∀ r, (createSession c).reg r = 0) ∧
    (∀ a, (createSession c).word a = 0) ∧ (createSession c).pc = 0 ∧
    (createSession c).status = .running ∧ (createSession c).faultKind = .none ∧
    (createSession c).faultPc = 0 ∧ (createSession c).faultValue = 0 ∧
    (createSession c).started = false ∧ (createSession c).netbuf = .empty

/-- The invariant holds at the start of every session with an admitted configuration, and at
`State.reset` (whose `NET_EXT = true` is the model's choice, log 2). -/
def Obligations.InvariantHoldsAtReset : Prop :=
  (∀ c : Config, c.WellFormed → (createSession c).Inv) ∧ State.reset.Inv

/-- Every step keeps the invariant: the register file keeps its size, memory its canonical form and
bounds, the fault record is written exactly when the core faults, `pc` ends where the spec says, the
buffer stays within its capacity and empty without the extension, and the configuration stays. -/
def Obligations.StepKeepsInvariant : Prop :=
  ∀ s t : State, s.Inv → step s = .next t → t.Inv ∧ t.cfg = s.cfg ∧ t.started = true

/-- Every state of every run of every launch of an admitted configuration meets the invariant. -/
def Obligations.EveryReachableStateMeetsInvariant : Prop :=
  ∀ (c : Config) (loads : List (List Word × Int)) (s : State) (n : Nat), c.WellFormed →
    launch c loads = .ok s → (s.runFor n).Inv ∧ (s.runFor n).cfg = c

/-- A fault is precise (60_exceptions.md R144; 30_encoding.md R64 and R68, decisions D4 and D5 of the
spec): the faulting step changes no register, memory word or Network Buffer; `fault_pc` is its
instruction offset; `pc` keeps its value on a fetch fault and is 3 further on any other. -/
def Obligations.FaultsArePrecise : Prop :=
  ∀ s t : State, step s = .next t → t.status = .faulted →
    t.regs = s.regs ∧ t.memory = s.memory ∧ t.netbuf = s.netbuf ∧ t.cfg = s.cfg ∧ t.started = true ∧
    t.faultPc = s.pc ∧ t.faultKind ≠ .none ∧
    (t.faultKind = .fetchOutOfBounds → t.pc = s.pc ∧ t.faultValue = s.pc) ∧
    (t.faultKind ≠ .fetchOutOfBounds → t.pc = s.pc + 3)

/-- A step that does not fault leaves the fault record as it was (60_exceptions.md section 1). -/
def Obligations.FaultRecordIsWrittenOnlyByFaults : Prop :=
  ∀ s t : State, step s = .next t → t.status ≠ .faulted →
    t.faultKind = s.faultKind ∧ t.faultPc = s.faultPc ∧ t.faultValue = s.faultValue

/-- Each fault kind has the cause and the value of the table of 60_exceptions.md section 1 (kinds, codes
and values are decision D7 of the spec). -/
def Obligations.EachFaultHasItsCause : Prop :=
  ∀ s t : State, step s = .next t → t.status = .faulted →
    match t.faultKind with
    | .none => False
    | .fetchOutOfBounds => ¬ FetchInBounds s.cfg s.pc ∧ t.faultValue = s.pc
    | .unknownOpcode => s.FetchesUnknown ∧ t.faultValue = s.window.opcode
    | .registerIndexOutOfBounds =>
      ∃ i, s.Fetches i ∧ i.mnemonic ∉ [.jmp, .halt] ∧ ¬ InRange s.cfg.numRegisters t.faultValue ∧
        (t.faultValue = i.operand1 ∨
          t.faultValue = i.operand2 ∧ i.mnemonic ∈ [.add, .sub, .receive])
    | .memoryAddressOutOfBounds =>
      ∃ reg, s.Fetches (.store reg t.faultValue) ∧ ¬ InRange s.cfg.memorySize t.faultValue
    | .registerBytesOutOfBounds =>
      (∃ reg, s.Fetches (.send reg t.faultValue) ∧ (t.faultValue.toInt < 0 ∨
        4 * (s.cfg.numRegisters : Int) < 4 * reg.toInt + t.faultValue.toInt)) ∨
      (∃ dst buf, s.Fetches (.receive dst buf) ∧ t.faultValue = BitVec.ofNat 32 s.netbuf.size ∧
        4 * (s.cfg.numRegisters : Int) < 4 * buf.toInt + s.netbuf.size)
    | .netPayloadTooLarge =>
      ∃ reg, s.Fetches (.send reg t.faultValue) ∧ (s.cfg.netBufCap : Int) < t.faultValue.toInt
    | .netReceiveBufferTooSmall =>
      ∃ dst buf, s.Fetches (.receive dst buf) ∧ t.faultValue = BitVec.ofNat 32 s.netbuf.size ∧
        recvCapacity s buf < s.netbuf.size

/-- Only STORE changes memory, and only the word it names, to the register's value (20_memory.md
section 1, an inference the spec marks as its own). -/
def Obligations.OnlyStoreChangesMemory : Prop :=
  ∀ (s t : State) (a : Nat), s.MemoryOk → step s = .next t → t.word a ≠ s.word a →
    ∃ reg addr, s.Fetches (.store reg addr) ∧ InRange s.cfg.memorySize addr ∧ a = addr.toNat ∧
      t.word a = s.reg reg.toNat

/-- `pc` moves only by the fetch's 3 and by JMP; a fetch that fails leaves it (10_state.md section 2, an
inference the spec marks as its own). -/
def Obligations.OnlyFetchAndJmpMovePc : Prop :=
  ∀ s t : State, step s = .next t →
    (¬ FetchInBounds s.cfg s.pc ∧ t.pc = s.pc) ∨
    (FetchInBounds s.cfg s.pc ∧ (∀ a b, ¬ s.Fetches (.jmp a b)) ∧ t.pc = s.pc + 3) ∨
    (∃ unused, s.Fetches (.jmp t.pc unused))

/-- A value reaches a register only by LOAD, ADD, SUB or RECEIVE, and then only a register the
instruction names or, for RECEIVE, one that the payload's bytes reach (10_state.md section 1,
40_data_movement.md, an inference the spec marks as its own). -/
def Obligations.RegistersChangeOnlyByTheirWriters : Prop :=
  ∀ (s t : State) (r : Nat), s.RegsSized → step s = .next t → t.reg r ≠ s.reg r →
    (∃ a b, a.toNat = r ∧ (s.Fetches (.load a b) ∨ s.Fetches (.add a b) ∨ s.Fetches (.sub a b))) ∨
    (∃ dst buf, s.Fetches (.receive dst buf) ∧
      (r = dst.toNat ∨ (buf.toNat ≤ r ∧ 4 * r < 4 * buf.toNat + s.netbuf.size)))

/-- Only SEND and RECEIVE touch the Network Buffer, so without the extension no step does
(60_exceptions.md section 3, an inference and decision D13 of the spec). -/
def Obligations.OnlyNetworkInstructionsTouchTheBuffer : Prop :=
  (∀ s t : State, step s = .next t → t.netbuf ≠ s.netbuf →
    (∃ reg size, s.Fetches (.send reg size) ∧
      t.netbuf = .holding (s.regs.readBytes (4 * reg.toNat) size.toNat)) ∨
    (∃ dst buf, s.Fetches (.receive dst buf) ∧ t.netbuf = .empty)) ∧
  (∀ s t : State, s.cfg.netExt = false → step s = .next t → t.netbuf = s.netbuf)

/-- The end of a run (60_exceptions.md R158, R145): a run has at most one end, so a faulted end is never
a clean end, and it is infinite exactly when it has none. -/
def Obligations.RunHasAtMostOneEnd : Prop :=
  (∀ s t u : State, EndsAt s t → EndsAt s u → t = u) ∧
  (∀ s : State, ¬ (EndsCleanly s ∧ EndsFaulted s)) ∧
  (∀ s : State, RunsForever s ↔ ¬ (EndsCleanly s ∨ EndsFaulted s))

/-- Memories in canonical form that agree on every word are the same data, so holding words as bytes
(log 3) distinguishes no two memories of the spec. -/
def Obligations.MemoryIsDeterminedByItsWords : Prop :=
  ∀ s t : State, s.MemoryOk → t.MemoryOk → (∀ a, s.word a = t.word a) → s.memory = t.memory

/-- The readout tells apart any two states of one configuration but for `started`, which it leaves out
(70_reset_and_hazards.md R171; the codes are decision D7 of the spec). -/
def Obligations.ReadoutDeterminesTheState : Prop :=
  ∀ s t : State, s.Inv → t.Inv → s.cfg = t.cfg → s.readout = t.readout →
    s = { t with started := s.started }

/-! ### The host's ports -/

/-- The load port (70_reset_and_hazards.md section 2, with the lower bound of decision D15): before the
first step a load that fits writes exactly its words and returns their count, one that does not fit is a
LoaderError, and after the first step any load is refused. -/
def Obligations.LoadPortIsAllOrNothing : Prop :=
  ∀ (s : State) (ws : List Word) (offset : Int), s.MemoryOk →
    (s.started = false → 0 ≤ offset → offset + ws.length ≤ s.cfg.memorySize →
      ∃ t, s.load ws offset = .loaded ws.length t ∧
        (∀ i (hi : i < ws.length), t.word (offset.toNat + i) = ws[i]) ∧
        SameWordsBut (fun a => offset.toNat ≤ a ∧ a < offset.toNat + ws.length) s t ∧ t.MemoryOk ∧
        t.regs = s.regs ∧ t.pc = s.pc ∧ t.netbuf = s.netbuf ∧ SameSession s t) ∧
    (s.started = false → ¬ (0 ≤ offset ∧ offset + ws.length ≤ s.cfg.memorySize) →
      s.load ws offset = .loaderError) ∧
    (∀ t u : State, step u = .next t → t.load ws offset = .refused .loadAfterStart)

/-- A program is copied verbatim into a new session, whose memory is otherwise 0 and whose other state is
at its start values (70_reset_and_hazards.md R163). -/
def Obligations.LaunchCopiesTheProgramVerbatim : Prop :=
  (∀ (c : Config) (a : Nat), (createSession c).word a = 0) ∧
  ∀ (c : Config) (ws : List Word) (offset : Int), 0 ≤ offset →
    offset + ws.length ≤ c.memorySize →
    ∃ s, launch c [(ws, offset)] = .ok s ∧
      (∀ i (hi : i < ws.length), s.word (offset.toNat + i) = ws[i]) ∧
      (∀ a, a < offset.toNat ∨ offset.toNat + ws.length ≤ a → s.word a = 0) ∧
      s = { createSession c with memory := s.memory }

/-- The instruction that `withFetchWord` places at a program counter in bounds is the one the next step
runs (the model's hook for a load, log 7). -/
def Obligations.StepRunsThePlacedInstruction : Prop :=
  ∀ (s : State) (nbits w : Nat) (i : Instr), s.status = .running → s.MemoryOk →
    FetchInBounds s.cfg s.pc → decodeWords s.cfg (tableWords nbits w) = .ok (i, []) →
    step (s.withFetchWord nbits w) = exec i (s.withFetchWord nbits w).afterFetch ∧
    (s.withFetchWord nbits w).regs = s.regs ∧ (s.withFetchWord nbits w).pc = s.pc

/-! ### The assembler -/

/-- A word printed in decimal reads back as itself (30_encoding.md sections on integers and printing,
decision D17 of the spec). -/
def Obligations.PrintedWordParsesBack : Prop :=
  ∀ w : Word, parseWord (printWord w) = some w

/-- Assembling the listing of base instructions gives their encodings in order when they fit in memory,
and a LoaderError when they do not (30_encoding.md section 5; lexical details are decision D17). -/
def Obligations.AssemblyOfListingIsEncoding : Prop :=
  ∀ (c : Config) (is : List Instr), (∀ i ∈ is, i.mnemonic ∈ enabled false) →
    assemble c (printListing is) =
      if 3 * is.length ≤ c.memorySize then .ok (is.flatMap (encode c)) else .error .loaderError

/-- Whatever text assembles is three words a line, in line order, of base instructions, and fits in
memory (30_encoding.md section 5; lexical details are decision D17). -/
def Obligations.AssembledTextIsThreeWordsPerLine : Prop :=
  ∀ (c : Config) (text : List Char) (ws : List Word), assemble c text = .ok ws →
    ∃ is : List Instr, ws = is.flatMap (encode c) ∧ is.length = (splitLines text).length ∧
      ws.length = 3 * (splitLines text).length ∧ ws.length ≤ c.memorySize ∧
      (∀ i ∈ is, i.mnemonic ∈ enabled false) ∧
      (splitLines text).map parseLine = is.map some

/-- A ParseError names the first line that is not valid, counted from 1, and no program is returned
(30_encoding.md section 5; lexical details are decision D17). -/
def Obligations.ParseErrorNamesTheFirstBadLine : Prop :=
  ∀ (c : Config) (text : List Char) (n : Nat), assemble c text = .error (.parseError n) ↔
    ∃ k line, n = k + 1 ∧ (splitLines text)[k]? = some line ∧ parseLine line = none ∧
      ∀ j < k, ∀ l, (splitLines text)[j]? = some l → parseLine l ≠ none

/-- From text to fetch: a listing of base instructions that fits, assembled and loaded at 0, stands in
memory so that the core decodes the `k`-th instruction at offset `3 * k`. -/
def Obligations.AssembledProgramIsWhatTheCoreDecodes : Prop :=
  ∀ (c : Config) (is : List Instr), c.WellFormed → (∀ i ∈ is, i.mnemonic ∈ enabled false) →
    3 * is.length ≤ c.memorySize →
    ∃ s, launchText c (printListing is) 0 = .ok s ∧ s.status = .running ∧ s.pc = 0 ∧
      ∀ k (hk : k < is.length), (s.setPc (BitVec.ofNat 32 (3 * k))).Fetches is[k]

/-! ### Running under fuel -/

/-- `run()` under fuel (42_control.md R114, 70_reset_and_hazards.md R170, inferences the spec marks as its
own): it reports an end exactly where the run ends, the same one under any more fuel; a run is infinite
exactly when it is out of fuel under every fuel; and a jump to itself is such a run. -/
def Obligations.FuelledRunReportsEndOrOutOfFuel : Prop :=
  (∀ s t : State, (∃ fuel, s.run fuel = .ended t) ↔ EndsAt s t) ∧
  (∀ (s t : State) (fuel more : Nat), fuel ≤ more → s.run fuel = .ended t → s.run more = .ended t) ∧
  (∀ s : State, RunsForever s ↔ ∀ fuel, s.run fuel = .outOfFuel) ∧
  (∀ (s : State) (unused : Word), s.status = .running → s.Fetches (.jmp s.pc unused) →
    ∀ fuel, s.run fuel = .outOfFuel)
end

