-- ==== Sys2Proof/Laws/Words.lean ====
section
/-! SUPPORT. Bytes of a word, wrapping, and the integer reading of an operand in range. -/

namespace Sys2Proof.Machine

/-- The bytes of a word assembled little-endian. -/
theorem le32_toNat (b0 b1 b2 b3 : Byte) :
    (le32 b0 b1 b2 b3).toNat =
      b0.toNat + 2 ^ 8 * b1.toNat + 2 ^ 16 * b2.toNat + 2 ^ 24 * b3.toNat := by
  have h0 := b0.isLt; have h1 := b1.isLt; have h2 := b2.isLt; have h3 := b3.isLt
  simp only [le32, wrap32, sextN, zextN, BitVec.toNat_ofInt]
  split <;> omega

/-- Byte `k` of a word as a number. -/
theorem byteOf_toNat (w : Word) (k : Nat) :
    (byteOf w k).toNat = w.toNat / 2 ^ (8 * k) % 256 := by
  simp [byteOf, bitSlice, u32]

@[simp] theorem byteOf_le32_zero (b0 b1 b2 b3 : Byte) : byteOf (le32 b0 b1 b2 b3) 0 = b0 := by
  have := b0.isLt
  apply BitVec.eq_of_toNat_eq; rw [byteOf_toNat, le32_toNat]; omega

@[simp] theorem byteOf_le32_one (b0 b1 b2 b3 : Byte) : byteOf (le32 b0 b1 b2 b3) 1 = b1 := by
  have := b0.isLt; have := b1.isLt
  apply BitVec.eq_of_toNat_eq; rw [byteOf_toNat, le32_toNat]; omega

@[simp] theorem byteOf_le32_two (b0 b1 b2 b3 : Byte) : byteOf (le32 b0 b1 b2 b3) 2 = b2 := by
  have := b0.isLt; have := b1.isLt; have := b2.isLt
  apply BitVec.eq_of_toNat_eq; rw [byteOf_toNat, le32_toNat]; omega

@[simp] theorem byteOf_le32_three (b0 b1 b2 b3 : Byte) : byteOf (le32 b0 b1 b2 b3) 3 = b3 := by
  have := b0.isLt; have := b1.isLt; have := b2.isLt; have := b3.isLt
  apply BitVec.eq_of_toNat_eq; rw [byteOf_toNat, le32_toNat]; omega

/-- A word is the word of its four bytes. -/
@[simp] theorem le32_byteOf (w : Word) :
    le32 (byteOf w 0) (byteOf w 1) (byteOf w 2) (byteOf w 3) = w := by
  have := w.isLt
  apply BitVec.eq_of_toNat_eq; rw [le32_toNat]; simp only [byteOf_toNat]; omega

/-- Words with the same four bytes are equal. -/
theorem word_eq_of_bytes {v w : Word} (h : ∀ k < 4, byteOf v k = byteOf w k) : v = w := by
  rw [← le32_byteOf v, ← le32_byteOf w, h 0 (by omega), h 1 (by omega), h 2 (by omega), h 3 (by omega)]

/-- Replacing a byte and reading it back. -/
theorem byteOf_putByte_same (w : Word) {k : Nat} (hk : k < 4) (v : Byte) :
    byteOf (putByte w k v) k = v := by
  have : k = 0 ∨ k = 1 ∨ k = 2 ∨ k = 3 := by omega
  rcases this with rfl | rfl | rfl | rfl <;> simp [putByte]

/-- Replacing a byte leaves the other bytes alone. -/
theorem byteOf_putByte_other (w : Word) {j k : Nat} (hj : j < 4) (h : j ≠ k) (v : Byte) :
    byteOf (putByte w k v) j = byteOf w j := by
  have : j = 0 ∨ j = 1 ∨ j = 2 ∨ j = 3 := by omega
  rcases this with rfl | rfl | rfl | rfl <;> simp [putByte, h.symm]

/-- Wrapping the exact sum is the addition of the words. -/
theorem wrap32_add (v w : Word) : wrap32 (v.toInt + w.toInt) = v + w := by
  apply BitVec.eq_of_toInt_eq; simp [wrap32, BitVec.toInt_add, BitVec.toInt_ofInt]

/-- Wrapping the exact difference is the subtraction of the words. -/
theorem wrap32_sub (v w : Word) : wrap32 (v.toInt - w.toInt) = v - w := by
  apply BitVec.eq_of_toInt_eq; simp [wrap32, BitVec.toInt_sub, BitVec.toInt_ofInt]

/-- A word that is not negative reads the same signed and unsigned. -/
theorem toInt_eq_toNat_of_nonneg {w : Word} (h : 0 ≤ w.toInt) : w.toInt = (w.toNat : Int) := by
  rw [BitVec.toInt_eq_toNat_cond] at h ⊢; have := w.isLt; split at h <;> simp_all; omega

/-- The index of an operand in range. -/
theorem InRange.toNat_lt {n : Nat} {w : Word} (h : InRange n w) : w.toNat < n := by
  have := toInt_eq_toNat_of_nonneg h.1; have := h.2; omega

end Sys2Proof.Machine
end

