-- ==== Sys2Proof/Laws/Memory.lean ====
section
/-! SUPPORT. Memory: a read after a write, the canonical form, equal contents are equal data
(spec/20_memory.md R42, R43). -/

namespace Sys2Proof.Machine

/-! ### Bytes -/

theorem Memory.readByte_cons (k' : Nat) (v' : Byte) (m : Memory) (k : Nat) :
    Memory.readByte ((k', v') :: m) k = if k = k' then v' else m.readByte k := rfl

/-- Below every key the memory lists nothing. -/
theorem Memory.readByte_of_lt {m : Memory} {k : Nat} (h : ∀ e ∈ m, k < e.1) :
    m.readByte k = unlistedByte := by
  induction m with
  | nil => rfl
  | cons e m ih =>
    obtain ⟨k', v'⟩ := e
    have hk : k < k' := h (k', v') (by simp)
    rw [Memory.readByte_cons, if_neg (by omega)]
    exact ih fun e he => h e (by simp [he])

/-- A byte read after it was written. -/
theorem Memory.readByte_writeByte_same {m : Memory} (hm : m.wf) (k : Nat) (v : Byte) :
    (m.writeByte k v).readByte k = v := by
  induction m with
  | nil => by_cases h : v = unlistedByte <;> simp [Memory.writeByte, h, Memory.readByte]
  | cons e m ih =>
    obtain ⟨k', v'⟩ := e
    have hlt : ∀ e ∈ m, k' < e.1 := fun e he => (List.pairwise_cons.1 hm.1).1 e he
    have htl : Memory.wf m := ⟨(List.pairwise_cons.1 hm.1).2, fun e he => hm.2 e (by simp [he])⟩
    simp only [Memory.writeByte]
    split
    · split
      · rename_i h1 h2
        rw [Memory.readByte_cons, if_neg (by omega), h2]
        exact Memory.readByte_of_lt fun e he => by have := hlt e he; omega
      · simp [Memory.readByte_cons]
    · split
      · rename_i h1 h2
        subst h2
        split
        · rename_i h3; rw [h3]; exact Memory.readByte_of_lt hlt
        · simp [Memory.readByte_cons]
      · rename_i h1 h2
        rw [Memory.readByte_cons, if_neg h2]; exact ih htl

/-- Writing a byte leaves every other byte alone. -/
theorem Memory.readByte_writeByte_other (m : Memory) {j k : Nat} (h : j ≠ k) (v : Byte) :
    (m.writeByte k v).readByte j = m.readByte j := by
  induction m with
  | nil => by_cases hv : v = unlistedByte <;> simp [Memory.writeByte, hv, Memory.readByte, h]
  | cons e m ih =>
    obtain ⟨k', v'⟩ := e
    simp only [Memory.writeByte]
    split
    · split <;> simp [Memory.readByte_cons, h]
    · split
      · rename_i h1 h2
        subst h2
        split <;> simp [Memory.readByte_cons, h]
      · simp [Memory.readByte_cons, ih]

/-- Every entry after a write is an old one or the written one, which is then not the unlisted byte. -/
theorem Memory.mem_writeByte {m : Memory} {k : Nat} {v : Byte} {e : Host.Cell}
    (h : e ∈ m.writeByte k v) : e ∈ m ∨ (e = (k, v) ∧ v ≠ unlistedByte) := by
  induction m with
  | nil =>
    simp only [Memory.writeByte] at h
    split at h <;> simp_all
  | cons e' m ih =>
    obtain ⟨k', v'⟩ := e'
    simp only [Memory.writeByte] at h
    split at h
    · split at h
      · exact .inl h
      · rcases List.mem_cons.1 h with h | h
        · exact .inr ⟨h, ‹_›⟩
        · exact .inl h
    · split at h
      · split at h
        · exact .inl (by simp [h])
        · rcases List.mem_cons.1 h with h | h
          · exact .inr ⟨h, ‹_›⟩
          · exact .inl (by simp [h])
      · rcases List.mem_cons.1 h with h | h
        · exact .inl (by simp [h])
        · rcases ih h with h | h
          · exact .inl (by simp [h])
          · exact .inr h

/-- Writing a byte keeps the canonical form. -/
theorem Memory.writeByte_wf {m : Memory} (hm : m.wf) (k : Nat) (v : Byte) : (m.writeByte k v).wf := by
  refine ⟨?_, fun e he => ?_⟩
  · induction m with
    | nil => by_cases h : v = unlistedByte <;> simp [Memory.writeByte, h]
    | cons e m ih =>
      obtain ⟨k', v'⟩ := e
      have hlt : ∀ e ∈ m, k' < e.1 := fun e he => (List.pairwise_cons.1 hm.1).1 e he
      have htl : Memory.wf m := ⟨(List.pairwise_cons.1 hm.1).2, fun e he => hm.2 e (by simp [he])⟩
      simp only [Memory.writeByte]
      split
      · split
        · exact hm.1
        · rename_i h1 h2
          refine List.pairwise_cons.2 ⟨fun e he => ?_, hm.1⟩
          rcases List.mem_cons.1 he with rfl | he
          · exact h1
          · have := hlt e he; show k < e.1; omega
      · split
        · rename_i h1 h2
          split
          · exact htl.1
          · exact List.pairwise_cons.2 ⟨fun e he => by have := hlt e he; show k < e.1; omega, htl.1⟩
        · rename_i h1 h2
          refine List.pairwise_cons.2 ⟨fun e he => ?_, ih htl⟩
          rcases Memory.mem_writeByte he with he | ⟨rfl, -⟩
          · exact hlt e he
          · show k' < k; omega
  · rcases Memory.mem_writeByte he with he | ⟨rfl, hv⟩
    · exact hm.2 e he
    · exact hv

/-- Writing a byte of a word in bounds lists nothing out of bounds. -/
theorem Memory.writeByte_within {n : Nat} {m : Memory} (hm : m.Within n) {k : Nat} (hk : k < 4 * n)
    (v : Byte) : (m.writeByte k v).Within n := fun e he => by
  rcases Memory.mem_writeByte he with he | ⟨rfl, -⟩
  · exact hm e he
  · exact hk

/-- Memories in canonical form that read alike are the same data. -/
theorem Memory.ext_of_readByte {m m' : Memory} (hm : m.wf) (hm' : m'.wf)
    (h : ∀ k, m.readByte k = m'.readByte k) : m = m' := by
  induction m generalizing m' with
  | nil =>
    cases m' with
    | nil => rfl
    | cons e' m' =>
      have := h e'.1
      obtain ⟨k', v'⟩ := e'
      rw [Memory.readByte_cons, if_pos rfl] at this
      exact absurd this.symm (hm'.2 (k', v') (by simp))
  | cons e m ih =>
    obtain ⟨k, v⟩ := e
    have hlt : ∀ e ∈ m, k < e.1 := fun e he => (List.pairwise_cons.1 hm.1).1 e he
    have htl : Memory.wf m := ⟨(List.pairwise_cons.1 hm.1).2, fun e he => hm.2 e (by simp [he])⟩
    have hv : v ≠ unlistedByte := hm.2 (k, v) (by simp)
    cases m' with
    | nil =>
      have := h k
      rw [Memory.readByte_cons, if_pos rfl] at this
      exact absurd this hv
    | cons e' m' =>
      obtain ⟨k', v'⟩ := e'
      have hlt' : ∀ e ∈ m', k' < e.1 := fun e he => (List.pairwise_cons.1 hm'.1).1 e he
      have htl' : Memory.wf m' := ⟨(List.pairwise_cons.1 hm'.1).2, fun e he => hm'.2 e (by simp [he])⟩
      have hv' : v' ≠ unlistedByte := hm'.2 (k', v') (by simp)
      have hk := h k
      have hk' := h k'
      rw [Memory.readByte_cons, if_pos rfl] at hk
      rw [Memory.readByte_cons k' v', if_pos rfl] at hk'
      have hkk : k = k' := by
        rcases lt_trichotomy k k' with hl | he | hl
        · rw [Memory.readByte_cons, if_neg (by omega),
            Memory.readByte_of_lt fun e he => by have := hlt' e he; omega] at hk
          exact absurd hk hv
        · exact he
        · rw [Memory.readByte_cons, if_neg (by omega),
            Memory.readByte_of_lt fun e he => by have := hlt e he; omega] at hk'
          exact absurd hk'.symm hv'
      subst hkk
      rw [Memory.readByte_cons, if_pos rfl] at hk
      subst hk
      rw [ih htl htl' fun j => ?_]
      have := h j
      rw [Memory.readByte_cons, Memory.readByte_cons] at this
      by_cases hj : j = k
      · subst hj
        rw [Memory.readByte_of_lt hlt, Memory.readByte_of_lt hlt']
      · simpa [hj] using this

/-! ### Words -/

@[simp] theorem Memory.readWord_nil (a : Nat) : Memory.readWord [] a = 0 := by
  simp only [Memory.readWord, Memory.readByte, unlistedByte]; decide

/-- Writing a word keeps the canonical form. -/
theorem Memory.writeWord_wf {m : Memory} (hm : m.wf) (a : Nat) (v : Word) : (m.writeWord a v).wf :=
  Memory.writeByte_wf (Memory.writeByte_wf (Memory.writeByte_wf (Memory.writeByte_wf hm _ _) _ _) _ _) _ _

/-- Writing a word in bounds lists nothing out of bounds. -/
theorem Memory.writeWord_within {n : Nat} {m : Memory} (hm : m.Within n) {a : Nat} (ha : a < n)
    (v : Word) : (m.writeWord a v).Within n :=
  Memory.writeByte_within (Memory.writeByte_within (Memory.writeByte_within
    (Memory.writeByte_within hm (by omega) _) (by omega) _) (by omega) _) (by omega) _

/-- `MemRead` after `MemWrite` to the same index (20_memory.md R42, R43). -/
theorem Memory.readWord_writeWord_same {m : Memory} (hm : m.wf) (a : Nat) (v : Word) :
    (m.writeWord a v).readWord a = v := by
  have h1 := Memory.writeByte_wf hm (4 * a) (byteOf v 0)
  have h2 := Memory.writeByte_wf h1 (4 * a + 1) (byteOf v 1)
  have h3 := Memory.writeByte_wf h2 (4 * a + 2) (byteOf v 2)
  simp only [Memory.readWord, Memory.writeWord, Memory.readByte_writeByte_same h3,
    Memory.readByte_writeByte_same h2, Memory.readByte_writeByte_same h1,
    Memory.readByte_writeByte_same hm,
    Memory.readByte_writeByte_other _ (show 4 * a ≠ 4 * a + 3 by omega),
    Memory.readByte_writeByte_other _ (show 4 * a ≠ 4 * a + 2 by omega),
    Memory.readByte_writeByte_other _ (show 4 * a ≠ 4 * a + 1 by omega),
    Memory.readByte_writeByte_other _ (show 4 * a + 1 ≠ 4 * a + 3 by omega),
    Memory.readByte_writeByte_other _ (show 4 * a + 1 ≠ 4 * a + 2 by omega),
    Memory.readByte_writeByte_other _ (show 4 * a + 2 ≠ 4 * a + 3 by omega), le32_byteOf]

/-- `MemWrite` leaves every other word unchanged (20_memory.md R43). -/
theorem Memory.readWord_writeWord_other (m : Memory) {a b : Nat} (h : b ≠ a) (v : Word) :
    (m.writeWord a v).readWord b = m.readWord b := by
  have key : ∀ i < 4, (m.writeWord a v).readByte (4 * b + i) = m.readByte (4 * b + i) := fun i hi => by
    simp only [Memory.writeWord]
    rw [Memory.readByte_writeByte_other _ (by omega), Memory.readByte_writeByte_other _ (by omega),
      Memory.readByte_writeByte_other _ (by omega), Memory.readByte_writeByte_other _ (by omega)]
  have k0 := key 0 (by omega)
  rw [Nat.add_zero] at k0
  simp only [Memory.readWord, k0, key 1 (by omega), key 2 (by omega), key 3 (by omega)]

/-- Writing words keeps the canonical form. -/
theorem Memory.writeWords_wf {m : Memory} (hm : m.wf) (a : Nat) (vs : List Word) :
    (m.writeWords a vs).wf := by
  induction vs generalizing m a with
  | nil => exact hm
  | cons v vs ih => exact ih (Memory.writeWord_wf hm a v) (a + 1)

/-- Writing words in bounds lists nothing out of bounds. -/
theorem Memory.writeWords_within {n : Nat} {m : Memory} (hm : m.Within n) {a : Nat} {vs : List Word}
    (ha : a + vs.length ≤ n) : (m.writeWords a vs).Within n := by
  induction vs generalizing m a with
  | nil => exact hm
  | cons v vs ih =>
    rw [List.length_cons] at ha
    exact ih (Memory.writeWord_within hm (by omega) v) (by omega)

/-- A word below or above the written range is unchanged. -/
theorem Memory.readWord_writeWords_outside (m : Memory) {a b : Nat} {vs : List Word}
    (h : b < a ∨ a + vs.length ≤ b) : (m.writeWords a vs).readWord b = m.readWord b := by
  induction vs generalizing m a with
  | nil => rfl
  | cons v vs ih =>
    rw [List.length_cons] at h
    rw [Memory.writeWords, ih _ (by omega), Memory.readWord_writeWord_other _ (by omega)]

/-- The `i`-th written word stands at index `a + i`. -/
theorem Memory.readWord_writeWords_inside {m : Memory} (hm : m.wf) (a : Nat) (vs : List Word) {i : Nat}
    (hi : i < vs.length) : (m.writeWords a vs).readWord (a + i) = vs[i] := by
  induction vs generalizing m a i with
  | nil => simp at hi
  | cons v vs ih =>
    rw [Memory.writeWords]
    cases i with
    | zero =>
      rw [Memory.readWord_writeWords_outside _ (by omega)]
      exact Memory.readWord_writeWord_same hm a v
    | succ i =>
      rw [show a + (i + 1) = (a + 1) + i by omega, ih (Memory.writeWord_wf hm a v) (a + 1) (by simpa using hi)]
      simp

/-- The bytes of the word at index `a`. -/
theorem Memory.byteOf_readWord (m : Memory) (a : Nat) {k : Nat} (hk : k < 4) :
    byteOf (m.readWord a) k = m.readByte (4 * a + k) := by
  have : k = 0 ∨ k = 1 ∨ k = 2 ∨ k = 3 := by omega
  rcases this with rfl | rfl | rfl | rfl <;> simp [Memory.readWord]

end Sys2Proof.Machine
end

