-- ==== Sys2Proof/Laws/Registers.lean ====
section
/-! SUPPORT. The register file and its byte view RB (spec/10_state.md R20, 43_network.md R120). -/

namespace Sys2Proof.Machine

variable (f : RegFile)

@[simp] theorem RegFile.write_length (i : Nat) (v : Word) : (f.write i v).length = f.length := by
  simp [RegFile.write]

/-- A register read after it was written. -/
theorem RegFile.read_write_same {i : Nat} (hi : i < f.length) (v : Word) :
    (f.write i v).read i = v := by
  simp [RegFile.read, RegFile.write, hi]

/-- Writing a register leaves every other register alone. -/
theorem RegFile.read_write_other {i r : Nat} (h : r ≠ i) (v : Word) :
    (f.write i v).read r = f.read r := by
  simp [RegFile.read, RegFile.write, List.getElem?_set_ne h.symm]

@[simp] theorem RegFile.writeByte_length (j : Nat) (v : Byte) : (f.writeByte j v).length = f.length := by
  simp [RegFile.writeByte]

/-- A byte of RB read after it was written. -/
theorem RegFile.readByte_writeByte_same {j : Nat} (hj : j < 4 * f.length) (v : Byte) :
    (f.writeByte j v).readByte j = v := by
  rw [RegFile.readByte, RegFile.writeByte, RegFile.read_write_same f (by omega),
    byteOf_putByte_same _ (by omega)]

/-- Writing a byte of RB leaves every other byte alone. -/
theorem RegFile.readByte_writeByte_other {j k : Nat} (hj : j < 4 * f.length) (h : k ≠ j) (v : Byte) :
    (f.writeByte j v).readByte k = f.readByte k := by
  rw [RegFile.readByte, RegFile.readByte, RegFile.writeByte]
  by_cases hr : k / 4 = j / 4
  · rw [hr, RegFile.read_write_same f (by omega), byteOf_putByte_other _ (by omega) (by omega)]
  · rw [RegFile.read_write_other f hr]

@[simp] theorem RegFile.writeBytes_length (j : Nat) (q : List Byte) :
    (f.writeBytes j q).length = f.length := by
  induction q generalizing f j with
  | nil => rfl
  | cons v q ih => simp [RegFile.writeBytes, ih]

@[simp] theorem RegFile.readBytes_length (j n : Nat) : (f.readBytes j n).length = n := by
  induction n generalizing j with
  | zero => rfl
  | succ n ih => simp [RegFile.readBytes, ih]

/-- The bytes read are those of RB in order. -/
theorem RegFile.readBytes_getElem (j n : Nat) {i : Nat} (hi : i < (f.readBytes j n).length) :
    (f.readBytes j n)[i] = f.readByte (j + i) := by
  induction n generalizing j i with
  | zero => simp [RegFile.readBytes] at hi
  | succ n ih =>
    cases i with
    | zero => rfl
    | succ i =>
      have hi' : i < (f.readBytes (j + 1) n).length := by simpa [RegFile.readBytes] using hi
      rw [show j + (i + 1) = (j + 1) + i by omega, ← ih (j + 1) hi']
      rfl

/-- A byte of RB outside the written range is unchanged. -/
theorem RegFile.readByte_writeBytes_outside {j k : Nat} {q : List Byte}
    (hq : j + q.length ≤ 4 * f.length) (h : k < j ∨ j + q.length ≤ k) :
    (f.writeBytes j q).readByte k = f.readByte k := by
  induction q generalizing f j with
  | nil => rfl
  | cons v q ih =>
    rw [List.length_cons] at hq h
    rw [RegFile.writeBytes, ih (f.writeByte j v) (by simp; omega) (by omega),
      RegFile.readByte_writeByte_other f (by omega) (by omega)]

/-- The `i`-th written byte stands at index `j + i` of RB. -/
theorem RegFile.readByte_writeBytes_inside {j : Nat} {q : List Byte}
    (hq : j + q.length ≤ 4 * f.length) {i : Nat} (hi : i < q.length) :
    (f.writeBytes j q).readByte (j + i) = q[i] := by
  induction q generalizing f j i with
  | nil => simp at hi
  | cons v q ih =>
    rw [List.length_cons] at hq
    rw [RegFile.writeBytes]
    cases i with
    | zero =>
      rw [RegFile.readByte_writeBytes_outside _ (by simp; omega) (by omega)]
      exact RegFile.readByte_writeByte_same f (by omega) v
    | succ i =>
      rw [show j + (i + 1) = (j + 1) + i by omega, ih (f.writeByte j v) (by simp; omega) (by simpa using hi)]
      simp

/-- A register none of whose bytes is written is unchanged. -/
theorem RegFile.read_writeBytes_outside {j r : Nat} {q : List Byte}
    (hq : j + q.length ≤ 4 * f.length) (h : 4 * r + 3 < j ∨ j + q.length ≤ 4 * r) :
    (f.writeBytes j q).read r = f.read r := by
  apply word_eq_of_bytes
  intro k hk
  have := RegFile.readByte_writeBytes_outside f hq (k := 4 * r + k) (by omega)
  simpa [RegFile.readByte, show (4 * r + k) / 4 = r by omega, show (4 * r + k) % 4 = k by omega] using this

end Sys2Proof.Machine
end

