-- ==== Sys2Proof/Laws/State.lean ====
section
/-! SUPPORT. One lemma per field per update of the state, and per view (`reg`, `word`) that an update
leaves alone, all true by rfl. -/

namespace Sys2Proof.Machine

variable (s : State)

/-! ### setWord -/

@[simp] theorem State.setWord_cfg (a : Nat) (v : Word) : (s.setWord a v).cfg = s.cfg := rfl
@[simp] theorem State.setWord_regs (a : Nat) (v : Word) : (s.setWord a v).regs = s.regs := rfl
@[simp] theorem State.setWord_memory (a : Nat) (v : Word) : (s.setWord a v).memory = s.memory.writeWord a v := rfl
@[simp] theorem State.setWord_pc (a : Nat) (v : Word) : (s.setWord a v).pc = s.pc := rfl
@[simp] theorem State.setWord_status (a : Nat) (v : Word) : (s.setWord a v).status = s.status := rfl
@[simp] theorem State.setWord_faultKind (a : Nat) (v : Word) : (s.setWord a v).faultKind = s.faultKind := rfl
@[simp] theorem State.setWord_faultPc (a : Nat) (v : Word) : (s.setWord a v).faultPc = s.faultPc := rfl
@[simp] theorem State.setWord_faultValue (a : Nat) (v : Word) : (s.setWord a v).faultValue = s.faultValue := rfl
@[simp] theorem State.setWord_started (a : Nat) (v : Word) : (s.setWord a v).started = s.started := rfl
@[simp] theorem State.setWord_netbuf (a : Nat) (v : Word) : (s.setWord a v).netbuf = s.netbuf := rfl
@[simp] theorem State.setWord_reg (a : Nat) (v : Word) (r : Nat) : (s.setWord a v).reg r = s.reg r := rfl

/-! ### setReg -/

@[simp] theorem State.setReg_cfg (i : Nat) (v : Word) : (s.setReg i v).cfg = s.cfg := rfl
@[simp] theorem State.setReg_regs (i : Nat) (v : Word) : (s.setReg i v).regs = s.regs.write i v := rfl
@[simp] theorem State.setReg_memory (i : Nat) (v : Word) : (s.setReg i v).memory = s.memory := rfl
@[simp] theorem State.setReg_pc (i : Nat) (v : Word) : (s.setReg i v).pc = s.pc := rfl
@[simp] theorem State.setReg_status (i : Nat) (v : Word) : (s.setReg i v).status = s.status := rfl
@[simp] theorem State.setReg_faultKind (i : Nat) (v : Word) : (s.setReg i v).faultKind = s.faultKind := rfl
@[simp] theorem State.setReg_faultPc (i : Nat) (v : Word) : (s.setReg i v).faultPc = s.faultPc := rfl
@[simp] theorem State.setReg_faultValue (i : Nat) (v : Word) : (s.setReg i v).faultValue = s.faultValue := rfl
@[simp] theorem State.setReg_started (i : Nat) (v : Word) : (s.setReg i v).started = s.started := rfl
@[simp] theorem State.setReg_netbuf (i : Nat) (v : Word) : (s.setReg i v).netbuf = s.netbuf := rfl
@[simp] theorem State.setReg_word (i : Nat) (v : Word) (w : Nat) : (s.setReg i v).word w = s.word w := rfl

/-! ### setRegBytes -/

@[simp] theorem State.setRegBytes_cfg (j : Nat) (q : List Byte) : (s.setRegBytes j q).cfg = s.cfg := rfl
@[simp] theorem State.setRegBytes_regs (j : Nat) (q : List Byte) : (s.setRegBytes j q).regs = s.regs.writeBytes j q := rfl
@[simp] theorem State.setRegBytes_memory (j : Nat) (q : List Byte) : (s.setRegBytes j q).memory = s.memory := rfl
@[simp] theorem State.setRegBytes_pc (j : Nat) (q : List Byte) : (s.setRegBytes j q).pc = s.pc := rfl
@[simp] theorem State.setRegBytes_status (j : Nat) (q : List Byte) : (s.setRegBytes j q).status = s.status := rfl
@[simp] theorem State.setRegBytes_faultKind (j : Nat) (q : List Byte) : (s.setRegBytes j q).faultKind = s.faultKind := rfl
@[simp] theorem State.setRegBytes_faultPc (j : Nat) (q : List Byte) : (s.setRegBytes j q).faultPc = s.faultPc := rfl
@[simp] theorem State.setRegBytes_faultValue (j : Nat) (q : List Byte) : (s.setRegBytes j q).faultValue = s.faultValue := rfl
@[simp] theorem State.setRegBytes_started (j : Nat) (q : List Byte) : (s.setRegBytes j q).started = s.started := rfl
@[simp] theorem State.setRegBytes_netbuf (j : Nat) (q : List Byte) : (s.setRegBytes j q).netbuf = s.netbuf := rfl
@[simp] theorem State.setRegBytes_word (j : Nat) (q : List Byte) (w : Nat) : (s.setRegBytes j q).word w = s.word w := rfl

/-! ### setPc -/

@[simp] theorem State.setPc_cfg (v : Word) : (s.setPc v).cfg = s.cfg := rfl
@[simp] theorem State.setPc_regs (v : Word) : (s.setPc v).regs = s.regs := rfl
@[simp] theorem State.setPc_memory (v : Word) : (s.setPc v).memory = s.memory := rfl
@[simp] theorem State.setPc_pc (v : Word) : (s.setPc v).pc = v := rfl
@[simp] theorem State.setPc_status (v : Word) : (s.setPc v).status = s.status := rfl
@[simp] theorem State.setPc_faultKind (v : Word) : (s.setPc v).faultKind = s.faultKind := rfl
@[simp] theorem State.setPc_faultPc (v : Word) : (s.setPc v).faultPc = s.faultPc := rfl
@[simp] theorem State.setPc_faultValue (v : Word) : (s.setPc v).faultValue = s.faultValue := rfl
@[simp] theorem State.setPc_started (v : Word) : (s.setPc v).started = s.started := rfl
@[simp] theorem State.setPc_netbuf (v : Word) : (s.setPc v).netbuf = s.netbuf := rfl
@[simp] theorem State.setPc_reg (v : Word) (r : Nat) : (s.setPc v).reg r = s.reg r := rfl
@[simp] theorem State.setPc_word (v : Word) (w : Nat) : (s.setPc v).word w = s.word w := rfl

/-! ### start -/

@[simp] theorem State.start_cfg : (s.start).cfg = s.cfg := rfl
@[simp] theorem State.start_regs : (s.start).regs = s.regs := rfl
@[simp] theorem State.start_memory : (s.start).memory = s.memory := rfl
@[simp] theorem State.start_pc : (s.start).pc = s.pc := rfl
@[simp] theorem State.start_status : (s.start).status = s.status := rfl
@[simp] theorem State.start_faultKind : (s.start).faultKind = s.faultKind := rfl
@[simp] theorem State.start_faultPc : (s.start).faultPc = s.faultPc := rfl
@[simp] theorem State.start_faultValue : (s.start).faultValue = s.faultValue := rfl
@[simp] theorem State.start_started : (s.start).started = true := rfl
@[simp] theorem State.start_netbuf : (s.start).netbuf = s.netbuf := rfl
@[simp] theorem State.start_reg (r : Nat) : (s.start).reg r = s.reg r := rfl
@[simp] theorem State.start_word (w : Nat) : (s.start).word w = s.word w := rfl

/-! ### halt -/

@[simp] theorem State.halt_cfg : (s.halt).cfg = s.cfg := rfl
@[simp] theorem State.halt_regs : (s.halt).regs = s.regs := rfl
@[simp] theorem State.halt_memory : (s.halt).memory = s.memory := rfl
@[simp] theorem State.halt_pc : (s.halt).pc = s.pc := rfl
@[simp] theorem State.halt_status : (s.halt).status = .halted := rfl
@[simp] theorem State.halt_faultKind : (s.halt).faultKind = s.faultKind := rfl
@[simp] theorem State.halt_faultPc : (s.halt).faultPc = s.faultPc := rfl
@[simp] theorem State.halt_faultValue : (s.halt).faultValue = s.faultValue := rfl
@[simp] theorem State.halt_started : (s.halt).started = s.started := rfl
@[simp] theorem State.halt_netbuf : (s.halt).netbuf = s.netbuf := rfl
@[simp] theorem State.halt_reg (r : Nat) : (s.halt).reg r = s.reg r := rfl
@[simp] theorem State.halt_word (w : Nat) : (s.halt).word w = s.word w := rfl

/-! ### raiseAt -/

@[simp] theorem State.raiseAt_cfg (p : Word) (k : Trap) : (s.raiseAt p k).cfg = s.cfg := rfl
@[simp] theorem State.raiseAt_regs (p : Word) (k : Trap) : (s.raiseAt p k).regs = s.regs := rfl
@[simp] theorem State.raiseAt_memory (p : Word) (k : Trap) : (s.raiseAt p k).memory = s.memory := rfl
@[simp] theorem State.raiseAt_pc (p : Word) (k : Trap) : (s.raiseAt p k).pc = s.pc := rfl
@[simp] theorem State.raiseAt_status (p : Word) (k : Trap) : (s.raiseAt p k).status = .faulted := rfl
@[simp] theorem State.raiseAt_faultKind (p : Word) (k : Trap) : (s.raiseAt p k).faultKind = k.kind := rfl
@[simp] theorem State.raiseAt_faultPc (p : Word) (k : Trap) : (s.raiseAt p k).faultPc = p := rfl
@[simp] theorem State.raiseAt_faultValue (p : Word) (k : Trap) : (s.raiseAt p k).faultValue = k.value := rfl
@[simp] theorem State.raiseAt_started (p : Word) (k : Trap) : (s.raiseAt p k).started = s.started := rfl
@[simp] theorem State.raiseAt_netbuf (p : Word) (k : Trap) : (s.raiseAt p k).netbuf = s.netbuf := rfl
@[simp] theorem State.raiseAt_reg (p : Word) (k : Trap) (r : Nat) : (s.raiseAt p k).reg r = s.reg r := rfl
@[simp] theorem State.raiseAt_word (p : Word) (k : Trap) (w : Nat) : (s.raiseAt p k).word w = s.word w := rfl

/-! ### raise -/

@[simp] theorem State.raise_cfg (k : Trap) : (s.raise k).cfg = s.cfg := rfl
@[simp] theorem State.raise_regs (k : Trap) : (s.raise k).regs = s.regs := rfl
@[simp] theorem State.raise_memory (k : Trap) : (s.raise k).memory = s.memory := rfl
@[simp] theorem State.raise_pc (k : Trap) : (s.raise k).pc = s.pc := rfl
@[simp] theorem State.raise_status (k : Trap) : (s.raise k).status = .faulted := rfl
@[simp] theorem State.raise_faultKind (k : Trap) : (s.raise k).faultKind = k.kind := rfl
@[simp] theorem State.raise_faultPc (k : Trap) : (s.raise k).faultPc = s.pc - 3 := rfl
@[simp] theorem State.raise_faultValue (k : Trap) : (s.raise k).faultValue = k.value := rfl
@[simp] theorem State.raise_started (k : Trap) : (s.raise k).started = s.started := rfl
@[simp] theorem State.raise_netbuf (k : Trap) : (s.raise k).netbuf = s.netbuf := rfl
@[simp] theorem State.raise_reg (k : Trap) (r : Nat) : (s.raise k).reg r = s.reg r := rfl
@[simp] theorem State.raise_word (k : Trap) (w : Nat) : (s.raise k).word w = s.word w := rfl

/-! ### setNetbuf -/

@[simp] theorem State.setNetbuf_cfg (b : NetBuffer) : (s.setNetbuf b).cfg = s.cfg := rfl
@[simp] theorem State.setNetbuf_regs (b : NetBuffer) : (s.setNetbuf b).regs = s.regs := rfl
@[simp] theorem State.setNetbuf_memory (b : NetBuffer) : (s.setNetbuf b).memory = s.memory := rfl
@[simp] theorem State.setNetbuf_pc (b : NetBuffer) : (s.setNetbuf b).pc = s.pc := rfl
@[simp] theorem State.setNetbuf_status (b : NetBuffer) : (s.setNetbuf b).status = s.status := rfl
@[simp] theorem State.setNetbuf_faultKind (b : NetBuffer) : (s.setNetbuf b).faultKind = s.faultKind := rfl
@[simp] theorem State.setNetbuf_faultPc (b : NetBuffer) : (s.setNetbuf b).faultPc = s.faultPc := rfl
@[simp] theorem State.setNetbuf_faultValue (b : NetBuffer) : (s.setNetbuf b).faultValue = s.faultValue := rfl
@[simp] theorem State.setNetbuf_started (b : NetBuffer) : (s.setNetbuf b).started = s.started := rfl
@[simp] theorem State.setNetbuf_netbuf (b : NetBuffer) : (s.setNetbuf b).netbuf = b := rfl
@[simp] theorem State.setNetbuf_reg (b : NetBuffer) (r : Nat) : (s.setNetbuf b).reg r = s.reg r := rfl
@[simp] theorem State.setNetbuf_word (b : NetBuffer) (w : Nat) : (s.setNetbuf b).word w = s.word w := rfl

/-! ### The start of a session -/

variable (c : Config)

@[simp] theorem State.initial_cfg : (State.initial c).cfg = c := rfl
@[simp] theorem State.initial_regs : (State.initial c).regs = List.replicate c.numRegisters 0 := rfl
@[simp] theorem State.initial_memory : (State.initial c).memory = [] := rfl
@[simp] theorem State.initial_pc : (State.initial c).pc = 0 := rfl
@[simp] theorem State.initial_status : (State.initial c).status = .running := rfl
@[simp] theorem State.initial_faultKind : (State.initial c).faultKind = .none := rfl
@[simp] theorem State.initial_faultPc : (State.initial c).faultPc = 0 := rfl
@[simp] theorem State.initial_faultValue : (State.initial c).faultValue = 0 := rfl
@[simp] theorem State.initial_started : (State.initial c).started = false := rfl
@[simp] theorem State.initial_netbuf : (State.initial c).netbuf = .empty := rfl

/-- The fault that an executing instruction raises, seen as a whole (60_exceptions.md R144). -/
theorem State.raise_faultedFrom (k : Trap) :
    (s.raise k).status = .faulted ∧ (s.raise k).faultKind = k.kind ∧
      (s.raise k).faultPc = s.instructionOffset ∧ (s.raise k).faultValue = k.value ∧
      (s.raise k).pc = s.pc := ⟨rfl, rfl, rfl, rfl, rfl⟩

end Sys2Proof.Machine
end

