-- ==== Sys2Proof/Laws/Ops.lean ====
section
/-! SUPPORT. What each shared operation can do, said once. -/

namespace Sys2Proof.Machine

/-! ### Checks -/

/-- The register check passes exactly on an index in range, and otherwise raises its fault
(30_encoding.md R70). -/
theorem checkRegister_cases (c : Config) (r : Word) :
    (InRange c.numRegisters r ∧ checkRegister c r = none) ∨
    (¬ InRange c.numRegisters r ∧ checkRegister c r = some ⟨.registerIndexOutOfBounds, r⟩) :=
  (em (InRange c.numRegisters r)).imp (fun h => ⟨h, if_pos h⟩) fun h => ⟨h, if_neg h⟩

/-- The address check passes exactly on an address in range (30_encoding.md R71). -/
theorem checkAddress_cases (c : Config) (a : Word) :
    (InRange c.memorySize a ∧ checkAddress c a = none) ∨
    (¬ InRange c.memorySize a ∧ checkAddress c a = some ⟨.memoryAddressOutOfBounds, a⟩) :=
  (em (InRange c.memorySize a)).imp (fun h => ⟨h, if_pos h⟩) fun h => ⟨h, if_neg h⟩

theorem checkRegister_eq_none {c : Config} {r : Word} :
    checkRegister c r = none ↔ InRange c.numRegisters r := by
  rcases checkRegister_cases c r with ⟨h, e⟩ | ⟨h, e⟩
  · exact iff_of_true e h
  · exact iff_of_false (by simp [e]) h

theorem checkAddress_eq_none {c : Config} {a : Word} :
    checkAddress c a = none ↔ InRange c.memorySize a := by
  rcases checkAddress_cases c a with ⟨h, e⟩ | ⟨h, e⟩
  · exact iff_of_true e h
  · exact iff_of_false (by simp [e]) h

theorem checkByteCount_eq_none {n : Word} : checkByteCount n = none ↔ 0 ≤ n.toInt := by
  unfold checkByteCount; split <;> simp_all

theorem checkPayload_eq_none {c : Config} {n : Word} :
    checkPayload c n = none ↔ n.toInt ≤ (c.netBufCap : Int) := by
  unfold checkPayload; split <;> simp_all

theorem checkRegisterBytes_eq_none {c : Config} {r : Word} {count : Int} {value : Word} :
    checkRegisterBytes c r count value = none ↔ 4 * r.toInt + count ≤ 4 * (c.numRegisters : Int) := by
  unfold checkRegisterBytes; split <;> simp_all

theorem checkCapacity_eq_none {cap : Int} {q : List Byte} :
    checkCapacity cap q = none ↔ (q.length : Int) ≤ cap := by
  unfold checkCapacity; split <;> simp_all

/-! ### Running an effect behind its checks -/

@[simp] theorem State.guarded_nil (s : State) (e : State → State) : s.guarded [] e = e s := rfl

@[simp] theorem State.guarded_none (s : State) (cs : List (Option Trap)) (e : State → State) :
    s.guarded (none :: cs) e = s.guarded cs e := rfl

@[simp] theorem State.guarded_some (s : State) (t : Trap) (cs : List (Option Trap))
    (e : State → State) : s.guarded (some t :: cs) e = s.raise t := rfl

/-- All that `guarded` can do: every check passes and the effect happens, or the first that fails is
raised (30_encoding.md R69). -/
theorem State.guarded_cases (s : State) (cs : List (Option Trap)) (e : State → State) :
    ((∀ k ∈ cs, k = none) ∧ s.guarded cs e = e s) ∨
    ∃ before t after, cs = before ++ some t :: after ∧ (∀ k ∈ before, k = none) ∧
      s.guarded cs e = s.raise t := by
  induction cs with
  | nil => exact .inl ⟨by simp, rfl⟩
  | cons k cs ih =>
    cases k with
    | some t => exact .inr ⟨[], t, cs, rfl, by simp, rfl⟩
    | none =>
      rcases ih with ⟨h, he⟩ | ⟨b, t, a, hc, hb, he⟩
      · exact .inl ⟨by simpa using h, by simpa using he⟩
      · exact .inr ⟨none :: b, t, a, by simp [hc], by simpa using hb, by simpa using he⟩

/-- When every check passes the effect happens. -/
theorem State.guarded_of_pass {s : State} {cs : List (Option Trap)} (h : ∀ k ∈ cs, k = none)
    (e : State → State) : s.guarded cs e = e s := by
  induction cs with
  | nil => rfl
  | cons k cs ih =>
    rw [h k (by simp), State.guarded_none]; exact ih fun k hk => h k (by simp [hk])

/-! ### Fetch -/

/-- All that fetch can do (30_encoding.md R63, R64). -/
theorem State.fetch_cases (s : State) :
    (FetchInBounds s.cfg s.pc ∧ s.fetch = .ok (s.window, s.setPc (s.pc + 3))) ∨
    (¬ FetchInBounds s.cfg s.pc ∧ s.fetch = .error ⟨.fetchOutOfBounds, s.pc⟩) :=
  (em (FetchInBounds s.cfg s.pc)).imp (fun h => ⟨h, if_pos h⟩) fun h => ⟨h, if_neg h⟩

@[simp] theorem State.start_window (s : State) : s.start.window = s.window := rfl

/-- After the fetch, the instruction offset is the unfetched `pc`. -/
theorem State.instructionOffset_setPc_add (s : State) (p : Word) :
    (s.setPc (p + 3)).instructionOffset = p := by
  simp [State.instructionOffset]

/-- `pc + 3` of a fetch in bounds does not wrap (10_state.md R24). -/
theorem FetchInBounds.toInt_add {c : Config} {p : Word} (hc : c.memorySize ≤ 2147483647)
    (h : FetchInBounds c p) : (p + 3).toInt = p.toInt + 3 := by
  have := h.2
  rw [BitVec.toInt_add, show (3 : Word).toInt = 3 from rfl]
  exact Int.bmod_eq_of_le (by omega) (by omega)

/-! ### Registers and memory of a state -/

/-- A register of a state read after it was written. -/
theorem State.setReg_reg_same {s : State} {i : Nat} (h : i < s.regs.length) (v : Word) :
    (s.setReg i v).reg i = v := RegFile.read_write_same _ h v

/-- Writing a register of a state leaves the others alone. -/
theorem State.setReg_reg_other (s : State) {i r : Nat} (h : r ≠ i) (v : Word) :
    (s.setReg i v).reg r = s.reg r := RegFile.read_write_other _ h v

/-- A word of a state read after it was written. -/
theorem State.setWord_word_same {s : State} (hm : s.memory.wf) (a : Nat) (v : Word) :
    (s.setWord a v).word a = v := Memory.readWord_writeWord_same hm a v

/-- Writing a word of a state leaves the others alone. -/
theorem State.setWord_word_other (s : State) {a b : Nat} (h : b ≠ a) (v : Word) :
    (s.setWord a v).word b = s.word b := Memory.readWord_writeWord_other _ h v

/-! ### RECEIVE's capacity and checks -/

/-- RECEIVE's last checks pass exactly when nothing is held, or the held payload fits the capacity and
the registers (43_network.md R124). -/
theorem checkPending_pass {c : Config} {cap : Int} {r : Word} {b : NetBuffer} :
    (∀ k ∈ checkPending c cap r b, k = none) ↔
      ∀ q, b = .holding q → (q.length : Int) ≤ cap ∧ 4 * r.toInt + q.length ≤ 4 * (c.numRegisters : Int) := by
  cases b with
  | empty => simp [checkPending]
  | holding q => simp [checkPending, checkCapacity_eq_none, checkRegisterBytes_eq_none]

end Sys2Proof.Machine
end

