-- ==== Sys2Proof/Laws/PerInstr.lean ====
section
/-! SUPPORT. The family `EncodedShape`: an instruction is three words, its mnemonic's opcode value and
its two operands whole, and they determine it (spec/30_encoding.md R60 to R62). -/

namespace Sys2Proof.Laws.EncodedShape

/-- What the family says of one instruction. -/
def Statement (i : Instr) : Prop :=
  (∀ c : Config, encode c i = [c.opcodeMap.value i.mnemonic, i.operand1, i.operand2]) ∧
    i.mnemonic.instr i.operand1 i.operand2 = i

theorem load (reg imm : Word) : Statement (.load reg imm) := ⟨fun _ => rfl, rfl⟩
theorem store (reg addr : Word) : Statement (.store reg addr) := ⟨fun _ => rfl, rfl⟩
theorem add (regA regB : Word) : Statement (.add regA regB) := ⟨fun _ => rfl, rfl⟩
theorem sub (regA regB : Word) : Statement (.sub regA regB) := ⟨fun _ => rfl, rfl⟩
theorem jmp (addr unused : Word) : Statement (.jmp addr unused) := ⟨fun _ => rfl, rfl⟩
theorem halt (unused1 unused2 : Word) : Statement (.halt unused1 unused2) := ⟨fun _ => rfl, rfl⟩
theorem send (reg size : Word) : Statement (.send reg size) := ⟨fun _ => rfl, rfl⟩
theorem receive (regDst regBuf : Word) : Statement (.receive regDst regBuf) := ⟨fun _ => rfl, rfl⟩

end Sys2Proof.Laws.EncodedShape
end

