-- ==== Sys2Proof/Laws/Run.lean ====
section
/-! SUPPORT. What running under fuel can report, said once (spec/42_control.md R114). -/

namespace Sys2Proof.Machine

variable {s t : State} {fuel : Nat}

/-- A run is out of fuel exactly when it has reached a running state. -/
@[simp] theorem run_eq_outOfFuel : s.run fuel = .outOfFuel ↔ (s.runFor fuel).status = .running := by
  unfold State.run
  cases (s.runFor fuel).status <;> simp

/-- A run has ended at `t` exactly when it has reached `t` and `t` is not running. -/
@[simp] theorem run_eq_ended :
    s.run fuel = .ended t ↔ s.runFor fuel = t ∧ t.status ≠ .running := by
  unfold State.run
  constructor
  · intro h
    cases e : (s.runFor fuel).status <;> rw [e] at h <;> cases h <;> exact ⟨rfl, by simp [e]⟩
  · rintro ⟨rfl, h⟩
    cases e : (s.runFor fuel).status with
    | running => exact absurd e h
    | halted | faulted => rfl

end Sys2Proof.Machine
end

