-- ==== Sys2Proof/Laws/Step.lean ====
section
/-! SUPPORT. What the decoder and the step can do, said once. -/

namespace Sys2Proof.Machine

/-- The mnemonic an opcode decodes to is enabled and has that value (30_encoding.md R66). -/
theorem decodeOpcode_some {c : Config} {op : Word} {m : Mnemonic} (h : decodeOpcode c op = some m) :
    m ∈ enabled c.netExt ∧ c.opcodeMap.value m = op :=
  ⟨List.mem_of_find?_eq_some h, by simpa using List.find?_some h⟩

/-- All that a step can do when it answers a next state: a fetch fault, the fault of a rejected opcode,
or the meaning of the decoded instruction on the state after the fetch (30_encoding.md R74). -/
theorem step_cases {s t : State} (h : step s = .next t) : s.status = .running ∧
    ((¬ FetchInBounds s.cfg s.pc ∧ t = s.start.raiseAt s.pc ⟨.fetchOutOfBounds, s.pc⟩) ∨
     (FetchInBounds s.cfg s.pc ∧
      ((∃ e, decode s.cfg s.window.opcode s.window.operand1 s.window.operand2 = .error e ∧
          t = (s.start.setPc (s.pc + 3)).raise ⟨.unknownOpcode, s.window.opcode⟩) ∨
       (∃ i, decode s.cfg s.window.opcode s.window.operand1 s.window.operand2 = .ok i ∧
          exec i (s.start.setPc (s.pc + 3)) = .next t)))) := by
  cases hr : s.status with
  | halted => simp [step, hr] at h
  | faulted => simp [step, hr] at h
  | running =>
    refine ⟨rfl, ?_⟩
    by_cases hf : FetchInBounds s.cfg s.pc
    · refine .inr ⟨hf, ?_⟩
      have e : s.start.fetch = .ok (s.window, s.start.setPc (s.pc + 3)) := if_pos hf
      simp only [step, hr, e] at h
      change (match decode s.cfg _ _ _ with | .ok i => _ | .error _ => _) = _ at h
      cases d : decode s.cfg s.window.opcode s.window.operand1 s.window.operand2 with
      | ok i => rw [d] at h; exact .inr ⟨i, rfl, h⟩
      | error e => rw [d] at h; cases h; exact .inl ⟨e, rfl, rfl⟩
    · have e : s.start.fetch = .error ⟨.fetchOutOfBounds, s.pc⟩ := if_neg hf
      simp only [step, hr, e] at h
      cases h
      exact .inl ⟨hf, rfl⟩

end Sys2Proof.Machine
end

