-- ==== Sys2Proof/Tests/Slice0.lean ====
section
/-! SUPPORT. Tests: the smoke tests of well-formedness, words decoded from the spec's encoding, vectors of
spec/95_test_vectors.md (the vector's id is named at each), and for every statement with hypotheses
witnesses that meet them, at the boundary values of its clauses. -/

namespace Sys2Proof.Tests

open Sys2Proof.Machine

/-! ### Small states -/

/-- A running session of the default sizes with words at `pc`. -/
def at_ (netExt : Bool) (pc : Word) (words : List Word) : State :=
  { State.initial (documentConfig netExt) with
    memory := Memory.writeWords [] pc.toNat words, pc := pc, started := true }

/-- The same with some register values from `x[0]` on. -/
def withRegs (s : State) (regs : List Word) : State :=
  { s with regs := regs ++ s.regs.drop regs.length }

/-- The state after the fetch of an instruction at offset 0, with register values and a buffer. -/
def mid (regs : List Word) (b : NetBuffer) : State :=
  { withRegs (at_ true 3 []) regs with netbuf := b }

/-- `mid` under `RECV_CAPACITY_SOURCE = REGISTER`. -/
def midRegister (regs : List Word) (b : NetBuffer) : State :=
  { mid regs b with cfg := { documentConfig true with recvCapacitySource := .register } }

/-- The next state of an outcome. -/
def next? (o : Host.Outcome State Fault Refusal) : Option State :=
  match o with
  | .next s => some s
  | _       => none

/-- Status, `pc` and fault record after one step. -/
def after (s : State) : Option (RunStatus × Int × FaultKind × Int × Int) :=
  (next? (step s)).map fun t =>
    (t.status, t.pc.toInt, t.faultKind, t.faultPc.toInt, t.faultValue.toInt)

/-- A running configuration with given sizes and opcode map. -/
def config (regs mem : Nat) (map : OpcodeMap) : Config :=
  { documentConfig true with numRegisters := regs, memorySize := mem, opcodeMap := map }

/-! ### Well-formedness refuses what is ill-formed -/

theorem test_send_is_ill_formed_in_the_base_core :
    ¬ (Instr.send 0 4).WellFormed (documentConfig false) := by decide
theorem test_receive_is_ill_formed_in_the_base_core :
    ¬ (Instr.receive 3 5).WellFormed (documentConfig false) := by decide
theorem test_send_is_well_formed_with_the_extension :
    (Instr.send 0 4).WellFormed (documentConfig true) := by decide
theorem test_default_configurations_are_well_formed :
    (documentConfig true).WellFormed ∧ (documentConfig false).WellFormed := by decide
theorem test_one_register_is_ill_formed : ¬ (config 1 256 defaultOpcodeMap).WellFormed := by decide
theorem test_two_memory_words_are_ill_formed : ¬ (config 8 2 defaultOpcodeMap).WellFormed := by decide
theorem test_memory_beyond_a_word_is_ill_formed :
    ¬ (config 8 2147483648 defaultOpcodeMap).WellFormed := by decide
theorem test_opcode_map_with_two_equal_values_is_ill_formed :
    ¬ (config 8 256 { defaultOpcodeMap with sub := 2 }).WellFormed := by decide
theorem test_opcode_map_with_a_negative_value_is_ill_formed :
    ¬ (config 8 256 { defaultOpcodeMap with load := -1 }).WellFormed := by decide

/-! ### Words decode to the instruction they stand for (30_encoding.md R60, R65) -/

theorem test_decode_load : decodeWords (documentConfig false) [0, 7, -1] = .ok (.load 7 (-1), []) := rfl
theorem test_decode_store : decodeWords (documentConfig false) [1, 2, 255] = .ok (.store 2 255, []) := rfl
theorem test_decode_add : decodeWords (documentConfig false) [2, 0, 1] = .ok (.add 0 1, []) := rfl
theorem test_decode_sub : decodeWords (documentConfig false) [3, 0, 1] = .ok (.sub 0 1, []) := rfl
theorem test_decode_jmp : decodeWords (documentConfig false) [4, 9, 0] = .ok (.jmp 9 0, []) := rfl
theorem test_decode_halt : decodeWords (documentConfig false) [5, 7, -9] = .ok (.halt 7 (-9), []) := rfl
theorem test_decode_send : decodeWords (documentConfig true) [6, 0, 4] = .ok (.send 0 4, []) := rfl
theorem test_decode_receive : decodeWords (documentConfig true) [7, 3, 5, 9] = .ok (.receive 3 5, [9]) := rfl
theorem test_decode_truncated : decodeWords (documentConfig true) [5, 0] = .error .truncated := rfl
theorem test_decodeTableWord_halt : decodeTableWord 32 5 = some (.halt 0 0) := by decide
theorem test_decodeTableWord_operands :
    decodeTableWord 96 0x000000050000000300000007 = some (.receive 3 5) := by decide
theorem test_decodeTableWord_unknown : decodeTableWord 32 8 = none := by decide

/-! ### Fetch and decode vectors -/

/-- F-5: no overflow in the bound. -/
theorem test_fetch_at_the_largest_word : after (at_ false 2147483647 []) =
    some (.faulted, 2147483647, .fetchOutOfBounds, 2147483647, 2147483647) := by decide
/-- F-2. -/
theorem test_fetch_two_words_from_the_end :
    after (at_ false 254 []) = some (.faulted, 254, .fetchOutOfBounds, 254, 254) := by decide
/-- F-9: the whole opcode word is compared. -/
theorem test_opcode_is_the_whole_word :
    after (at_ false 0 [261, 0, 0]) = some (.faulted, 3, .unknownOpcode, 0, 261) := by decide
/-- F-7: SEND is unknown to the base core. -/
theorem test_send_is_unknown_to_the_base_core :
    after (at_ false 0 [6, 0, 4]) = some (.faulted, 3, .unknownOpcode, 0, 6) := by decide
/-- F-10: no step from Halted. -/
theorem test_no_step_from_halted :
    step { at_ false 0 [5, 0, 0] with status := .halted } = .fault (.noStep .halted) := rfl

/-! ### Instruction vectors -/

/-- D-3. -/
theorem test_load_takes_the_whole_word :
    (next? (step (at_ false 0 [0, 0, -2147483648]))).map (fun t => (t.reg 0).toInt) =
      some (-2147483648) := by decide
/-- D-4. -/
theorem test_load_register_8_faults :
    after (at_ false 6 [0, 8, 1]) = some (.faulted, 9, .registerIndexOutOfBounds, 6, 8) := by decide
/-- D-10: a STORE into its own window. -/
theorem test_store_into_its_own_window :
    (next? (step (withRegs (at_ false 0 [1, 0, 1]) [7]))).map (fun t => (t.word 0, t.word 1, t.word 2, t.pc)) =
      some (1, 7, 1, 3) := by decide
/-- D-9: operand1 is checked first. -/
theorem test_store_checks_the_register_first :
    after (at_ false 0 [1, 8, 256]) = some (.faulted, 3, .registerIndexOutOfBounds, 0, 8) := by decide
/-- A-2. -/
theorem test_add_wraps :
    (next? (step (withRegs (at_ false 0 [2, 0, 1]) [2147483647, 1]))).map
      (fun t => ((t.reg 0).toInt, t.reg 1)) = some (-2147483648, 1) := by decide
/-- A-6. -/
theorem test_add_register_to_itself :
    (next? (step (withRegs (at_ false 0 [2, 3, 3]) [0, 0, 0, -5]))).map (fun t => (t.reg 3).toInt) =
      some (-10) := by decide
/-- S-5: the operand order. -/
theorem test_sub_order :
    (next? (step (withRegs (at_ false 0 [3, 0, 1]) [3, 8]))).map (fun t => (t.reg 0).toInt) =
      some (-5) := by decide
/-- S-7. -/
theorem test_sub_negative_index_faults :
    after (at_ false 0 [3, -3, 0]) = some (.faulted, 3, .registerIndexOutOfBounds, 0, -3) := by decide
/-- C-3. -/
theorem test_jmp_takes_any_target :
    after (at_ false 0 [4, -7, 123]) = some (.running, -7, .none, 0, 0) := by decide
/-- C-1. -/
theorem test_jmp_is_absolute :
    after (at_ false 12 [4, 9, 0]) = some (.running, 9, .none, 0, 0) := by decide
/-- C-5: operands ignored. -/
theorem test_halt_ignores_operands :
    after (at_ false 12 [5, 7, -9]) = some (.halted, 15, .none, 0, 0) := by decide
/-- C-6. -/
theorem test_halt_at_the_end_of_memory :
    after (at_ false 253 [5, 0, 0]) = some (.halted, 256, .none, 0, 0) := by decide
/-- N-2: the bytes run on into the next register. -/
theorem test_send_runs_on :
    (next? (step (withRegs (at_ true 0 [6, 0, 8]) [-1, 127]))).map (·.netbuf) =
      some (.holding [255, 255, 255, 255, 127, 0, 0, 0]) := by decide
/-- N-7: too large is checked before the byte range. -/
theorem test_send_too_large :
    after (at_ true 0 [6, 0, 257]) = some (.faulted, 3, .netPayloadTooLarge, 0, 257) := by decide
/-- N-14: only the low byte of the register changes. -/
theorem test_receive_one_byte :
    (next? (exec (.receive 2 1) (mid [0, -1] (.holding [9])))).map
      (fun t => ((t.reg 1).toInt, t.reg 2, t.netbuf)) = some (-247, 1, .empty) := by decide
/-- N-18: the capacity read from the register. -/
theorem test_receive_capacity_from_the_register :
    (next? (exec (.receive 0 4) (midRegister [0, 0, 0, 0, 10] (.holding [1, 2, 3, 4, 5, 6, 7, 8])))).map
      (fun t => (t.reg 4, t.reg 5, t.reg 0, t.netbuf)) =
        some (67305985, 134678021, 8, .empty) := by decide

/-! ### Loader vectors -/

/-- Ld-1 and Ld-4. -/
theorem test_load_that_does_not_fit :
    (createSession (documentConfig false)).load [1, 2, 3] 254 = .loaderError ∧
      (createSession (documentConfig false)).load [5] (-1) = .loaderError := by decide
/-- Ld-2: the count. -/
theorem test_load_at_the_end_of_memory :
    (match (createSession (documentConfig false)).load [1, 2] 254 with
      | .loaded n s => some (n, s.word 254, s.word 255)
      | _ => none) = some (2, 1, 2) := by decide
/-- Ld-5. -/
theorem test_load_after_the_first_step_is_refused :
    (at_ false 3 []).load [5] 0 = .refused .loadAfterStart := by decide

/-! ### Assembler vectors -/

/-- L1-1: the document's example, as words. -/
theorem test_assemble_the_document_example :
    assemble (documentConfig false) "LOAD 0 5\nLOAD 1 3\nADD 0 1\nSTORE 0 10\nHALT\n".toList =
      .ok [0, 0, 5, 0, 1, 3, 2, 0, 1, 1, 0, 10, 5, 0, 0] := by rfl
/-- As-5: a blank line. -/
theorem test_assemble_blank_line :
    assemble (documentConfig false) "LOAD 0 5\n\nHALT\n".toList = .error (.parseError 2) := by rfl
/-- As-3, As-4, As-8, As-9, As-15. -/
theorem test_malformed_lines :
    (["JMP 9", "load 0 5", "SEND 0 4", "LOAD 0 5 6", "LOAD 0 0x10"].map fun l => parseLine l.toList) =
      [none, none, none, none, none] := by rfl
/-- As-6 and As-7: the word range. -/
theorem test_integer_range :
    parseWord "2147483648".toList = none ∧ parseWord "-2147483648".toList = some (-2147483648) := by
  decide
/-- As-14 and As-16: whitespace and signs. -/
theorem test_whitespace_and_signs :
    parseLine "  LOAD\t0   5  ".toList = some (.load 0 5) ∧
      parseLine "LOAD +3 -0".toList = some (.load 3 0) := ⟨rfl, rfl⟩
/-- As-12 and As-13: an empty text has no line, a newline has one. -/
theorem test_empty_text_and_empty_line :
    assemble (documentConfig false) [] = .ok [] ∧
      assemble (documentConfig false) ['\n'] = .error (.parseError 1) := ⟨rfl, rfl⟩

/-! ### Witnesses: encoding and step -/

theorem witness_DecodeOfEncodeIsIdentity :
    (documentConfig true).opcodeMap.WellFormed ∧
      (Instr.receive (-1) 2147483647).WellFormed (documentConfig true) := by decide
theorem witness_EncodeOfDecodeIsIdentity :
    decode (documentConfig true) 7 (-1) 0 = .ok (.receive (-1) 0) := rfl
theorem witness_DecodeRejectsExactlyUnknownOpcodes :
    (documentConfig false).opcodeMap.WellFormed ∧ (documentConfig false).netExt = false := by decide
theorem witness_StepIsFetchDecodeExecute_fetch_fault :
    (at_ true 254 []).status = .running ∧
      ¬ FetchInBounds (at_ true 254 []).cfg (at_ true 254 []).pc := by decide
theorem witness_StepIsFetchDecodeExecute_negative_pc :
    (at_ true (-1) []).status = .running ∧
      ¬ FetchInBounds (at_ true (-1) []).cfg (at_ true (-1) []).pc := by decide
/-- Also for UnknownOpcodeFaultsAfterAdvance. -/
theorem witness_StepIsFetchDecodeExecute_unknown :
    (at_ true 253 [8, 0, 0]).status = .running ∧ (at_ true 253 [8, 0, 0]).FetchesUnknown :=
  ⟨rfl, by decide, by decide⟩
/-- Also for StepRunsTheDecodedInstruction and the step clause of HaltEntersHalted. -/
theorem witness_StepIsFetchDecodeExecute_decoded :
    (at_ true 253 [5, 7, -9]).status = .running ∧ (at_ true 253 [5, 7, -9]).Fetches (.halt 7 (-9)) :=
  ⟨rfl, by decide, rfl⟩
theorem witness_StepRunsTheDecodedInstruction :
    (at_ true 0 [7, 3, 5]).status = .running ∧ (at_ true 0 [7, 3, 5]).Fetches (.receive 3 5) :=
  ⟨rfl, by decide, rfl⟩
theorem witness_FetchReadsThreeWordsInBounds :
    (at_ true 253 [5, 0, 0]).status = .running ∧
      (at_ true 253 [5, 0, 0]).fetch = .ok (⟨5, 0, 0⟩, (at_ true 253 [5, 0, 0]).setPc 256) ∧
      decode (documentConfig true) 5 0 0 = .ok (.halt 0 0) :=
  ⟨rfl, by rfl, rfl⟩
theorem witness_UnknownOpcodeFaultsAfterAdvance :
    (at_ false 0 [-1, 0, 0]).status = .running ∧ (at_ false 0 [-1, 0, 0]).FetchesUnknown :=
  ⟨rfl, by decide, by decide⟩
theorem witness_StepExistsExactlyWhileRunning :
    ({ at_ true 0 [] with status := .faulted } : State).status ≠ .running := by decide

/-! ### Witnesses: the base instructions -/

theorem witness_LoadWritesImmediateOrFaults_writes :
    (mid [] .empty).RegsSized ∧ InRange (mid [] .empty).cfg.numRegisters 7 := by decide
theorem witness_LoadWritesImmediateOrFaults_faults :
    (mid [] .empty).pc = 0 + 3 ∧ ¬ InRange (mid [] .empty).cfg.numRegisters 8 ∧
      ¬ InRange (mid [] .empty).cfg.numRegisters (-1) := by decide
theorem witness_StoreWritesWordOrFaults_writes :
    (mid [] .empty).MemoryOk ∧ InRange (mid [] .empty).cfg.numRegisters 7 ∧
      InRange (mid [] .empty).cfg.memorySize 255 := by decide
theorem witness_StoreWritesWordOrFaults_faults :
    (mid [] .empty).pc = 0 + 3 ∧ ¬ InRange (mid [] .empty).cfg.numRegisters 8 ∧
      InRange (mid [] .empty).cfg.numRegisters 7 ∧ ¬ InRange (mid [] .empty).cfg.memorySize 256 ∧
      ¬ InRange (mid [] .empty).cfg.memorySize (-1) := by decide
theorem witness_StoreIsSeenByTheNextFetch :
    (at_ true 6 [1, 7, 8]).Inv ∧ (at_ true 6 [1, 7, 8]).status = .running ∧
      (at_ true 6 [1, 7, 8]).Fetches (.store 7 8) ∧
      InRange (at_ true 6 [1, 7, 8]).cfg.numRegisters 7 ∧
      InRange (at_ true 6 [1, 7, 8]).cfg.memorySize 8 ∧
      (6 : Word).toNat ≤ (8 : Word).toNat ∧ (8 : Word).toNat ≤ (6 : Word).toNat + 2 :=
  ⟨by decide, rfl, ⟨by decide, rfl⟩, by decide, by decide, by decide, by decide⟩
/-- Also for SubWritesWrappedDifferenceOrFaults and ArithmeticWrapsModulo32Bits. -/
theorem witness_AddWritesWrappedSumOrFaults_writes :
    (mid [] .empty).RegsSized ∧ InRange (mid [] .empty).cfg.numRegisters 0 ∧
      InRange (mid [] .empty).cfg.numRegisters 7 := by decide
/-- Also for SubWritesWrappedDifferenceOrFaults. -/
theorem witness_AddWritesWrappedSumOrFaults_faults :
    (mid [] .empty).pc = 0 + 3 ∧ ¬ InRange (mid [] .empty).cfg.numRegisters 8 ∧
      InRange (mid [] .empty).cfg.numRegisters 0 ∧
      ¬ InRange (mid [] .empty).cfg.numRegisters (-1) := by decide
theorem witness_SubWritesWrappedDifferenceOrFaults :
    (mid [] .empty).RegsSized ∧ (mid [] .empty).pc = 0 + 3 ∧
      InRange (mid [] .empty).cfg.numRegisters 7 ∧
      ¬ InRange (mid [] .empty).cfg.numRegisters 8 := by decide
theorem witness_ArithmeticWrapsModulo32Bits :
    (mid [2147483647, 1] .empty).RegsSized ∧ InRange (mid [2147483647, 1] .empty).cfg.numRegisters 0 ∧
      InRange (mid [2147483647, 1] .empty).cfg.numRegisters 1 := by decide
theorem witness_RegisterArithmeticHasClosedForm :
    (mid [] .empty).RegsSized ∧
      ∀ i ∈ [Instr.load 0 10, .sub 1 0, .add 7 7], RegisterArithmetic (mid [] .empty).cfg i := by
  refine ⟨by decide, fun i hi => ?_⟩
  simp only [List.mem_cons, List.not_mem_nil, or_false] at hi
  rcases hi with rfl | rfl | rfl
  · show InRange 8 0; decide
  · show InRange 8 1 ∧ InRange 8 0; decide
  · show InRange 8 7 ∧ InRange 8 7; decide
theorem witness_JmpSetsPcAndFaultsAtTheNextFetch_fault :
    (mid [] .empty).status = .running ∧ ¬ FetchInBounds (mid [] .empty).cfg 254 ∧
      ¬ FetchInBounds (mid [] .empty).cfg (-1) := by decide
theorem witness_JmpSetsPcAndFaultsAtTheNextFetch_loop :
    (at_ true 253 [4, 253, 0]).status = .running ∧ (at_ true 253 [4, 253, 0]).Fetches (.jmp 253 0) :=
  ⟨rfl, by decide, rfl⟩
theorem witness_HaltEntersHalted :
    (at_ true 0 [5, 0, 0]).Fetches (.halt 0 0) ∧ (at_ true 254 [5]).status = .running ∧
      ¬ FetchInBounds (at_ true 254 [5]).cfg (at_ true 254 [5]).pc :=
  ⟨⟨by decide, rfl⟩, rfl, by decide⟩
theorem witness_HaltsExactlyOnFetchedHalt :
    (next? (step (at_ true 253 [5, 0, 0]))).map (·.status) = some .halted := by decide
/-- From `pc` 256 (no step before the fault) and from 100, with nothing but zeros after it. -/
theorem witness_ZeroFilledTailEndsInFetchFault :
    ((at_ true 256 []).Inv ∧ (at_ true 256 []).cfg.opcodeMap.load = 0 ∧
      (at_ true 256 []).pc.toInt ≤ (at_ true 256 []).cfg.memorySize) ∧
    (at_ true 100 []).Inv ∧ 0 ≤ (at_ true 100 []).pc.toInt ∧
      (at_ true 100 []).status = .running ∧
      (at_ true 100 []).pc.toInt ≤ (at_ true 100 []).cfg.memorySize ∧
      ∀ a, (at_ true 100 []).word a = 0 :=
  ⟨by decide, by decide, by decide, rfl, by decide, fun _ => by
    simp only [at_, Memory.writeWords, State.word, Memory.readWord, Memory.readByte, unlistedByte]
    decide⟩

/-! ### Witnesses: the network -/

theorem witness_SendHoldsRegisterBytes :
    ((documentConfig true).opcodeMap.WellFormed ∧ (documentConfig true).netExt = true) ∧
    InRange (mid [] .empty).cfg.numRegisters 7 ∧ 0 ≤ (4 : Word).toInt ∧
      (4 : Word).toInt ≤ (mid [] .empty).cfg.netBufCap ∧
      4 * (7 : Word).toInt + (4 : Word).toInt ≤ 4 * (mid [] .empty).cfg.numRegisters := by decide
theorem witness_SendFaultsInOrder :
    (mid [] .empty).pc = 0 + 3 ∧ ¬ InRange (mid [] .empty).cfg.numRegisters 8 ∧
      InRange (mid [] .empty).cfg.numRegisters 7 ∧ (-1 : Word).toInt < 0 ∧
      ((mid [] .empty).cfg.netBufCap : Int) < (257 : Word).toInt ∧
      0 ≤ (5 : Word).toInt ∧ (5 : Word).toInt ≤ (mid [] .empty).cfg.netBufCap ∧
      4 * ((mid [] .empty).cfg.numRegisters : Int) < 4 * (7 : Word).toInt + (5 : Word).toInt := by
  decide
/-- A payload as long as the capacity, one that ends at the last byte of RB, and an empty buffer. -/
theorem witness_ReceiveTakesPayloadIntoRegisters :
    (mid [] (.holding [4, 3, 2, 1])).RegsSized ∧
      InRange (mid [] (.holding [4, 3, 2, 1])).cfg.numRegisters 3 ∧
      InRange (mid [] (.holding [4, 3, 2, 1])).cfg.numRegisters 4 ∧
      InRange (mid [] (.holding [4, 3, 2, 1])).cfg.numRegisters 7 ∧
      ([4, 3, 2, 1] : List Byte) = (mid [] (.holding [4, 3, 2, 1])).netbuf.payload ∧
      (([4, 3, 2, 1] : List Byte).length : Int) ≤ (4 : Word).toInt ∧
      (([4, 3, 2, 1] : List Byte).length : Int) ≤ (7 : Word).toInt ∧
      4 * (4 : Word).toInt + ([4, 3, 2, 1] : List Byte).length ≤
        4 * (mid [] (.holding [4, 3, 2, 1])).cfg.numRegisters ∧
      4 * (7 : Word).toInt + ([4, 3, 2, 1] : List Byte).length ≤
        4 * (mid [] (.holding [4, 3, 2, 1])).cfg.numRegisters ∧
      (mid [] .empty).netbuf.payload = [] := by decide
theorem witness_ReceiveTakesPayloadIntoRegisters_register :
    (midRegister [0, 0, 0, 0, 8] (.holding [1, 2, 3, 4, 5, 6, 7, 8])).RegsSized ∧
      (8 : Int) ≤ ((midRegister [0, 0, 0, 0, 8] (.holding [1, 2, 3, 4, 5, 6, 7, 8])).reg 4).toInt ∧
      4 * (4 : Word).toInt + 8 ≤
        4 * (midRegister [0, 0, 0, 0, 8] (.holding [1, 2, 3, 4, 5, 6, 7, 8])).cfg.numRegisters := by
  decide
/-- The four faults: dst 8, buf -1, 5 bytes with capacity 4, 5 bytes from register 7. -/
theorem witness_ReceiveFaultsInOrder :
    (mid [] (.holding [1, 2, 3, 4, 5])).pc = 0 + 3 ∧
      ¬ InRange (mid [] (.holding [1, 2, 3, 4, 5])).cfg.numRegisters 8 ∧
      InRange (mid [] (.holding [1, 2, 3, 4, 5])).cfg.numRegisters 0 ∧
      ¬ InRange (mid [] (.holding [1, 2, 3, 4, 5])).cfg.numRegisters (-1) ∧
      (4 : Word).toInt < ([1, 2, 3, 4, 5] : List Byte).length ∧
      (([1, 2, 3, 4, 5] : List Byte).length : Int) ≤ (7 : Word).toInt ∧
      4 * ((mid [] (.holding [1, 2, 3, 4, 5])).cfg.numRegisters : Int) <
        4 * (7 : Word).toInt + ([1, 2, 3, 4, 5] : List Byte).length := by decide
theorem witness_NetworkInstructionsRefineTheInterface :
    InRange (mid [] .empty).cfg.numRegisters 0 ∧ 0 ≤ (32 : Word).toInt ∧
      4 * (0 : Word).toInt + (32 : Word).toInt ≤ 4 * (mid [] .empty).cfg.numRegisters ∧
      (mid [] (.holding [9])).RegsSized ∧ InRange (mid [] (.holding [9])).cfg.numRegisters 7 ∧
      4 * (7 : Word).toInt + (mid [] (.holding [9])).netbuf.size ≤
        4 * (mid [] (.holding [9])).cfg.numRegisters := by decide
/-- `SEND 0 4`, one step of `LOAD 0 0`, then `RECEIVE 3 5` is admitted. -/
theorem witness_SendThenReceiveRoundTrip :
    ∃ t u, exec (.send 0 4) (mid [16909060] .empty) = .next t ∧
      (∀ k < 1, ¬ (t.runFor k).FetchesNetwork) ∧ u = t.runFor 1 ∧ u.RegsSized ∧
      InRange (mid [16909060] .empty).cfg.numRegisters 0 ∧
      (4 : Word).toInt ≤ (mid [16909060] .empty).cfg.netBufCap ∧
      4 * (0 : Word).toInt + (4 : Word).toInt ≤ 4 * (mid [16909060] .empty).cfg.numRegisters ∧
      InRange (mid [16909060] .empty).cfg.numRegisters 3 ∧
      InRange (mid [16909060] .empty).cfg.numRegisters 5 ∧
      (4 : Word).toInt ≤ recvCapacity u 5 ∧
      4 * (5 : Word).toInt + (4 : Word).toInt ≤ 4 * (mid [16909060] .empty).cfg.numRegisters := by
  refine ⟨_, _, rfl, fun k hk => ?_, rfl, by decide, by decide, by decide, by decide, by decide,
    by decide, by decide, by decide⟩
  obtain rfl : k = 0 := by omega
  rintro ⟨a, b, h | h⟩
  · have h := h.2; change Except.ok (Instr.load 0 0) = Except.ok (Instr.send a b) at h; cases h
  · have h := h.2; change Except.ok (Instr.load 0 0) = Except.ok (Instr.receive a b) at h; cases h
theorem witness_BufferIsOneSlotDeliveredAtMostOnce :
    (next? (exec (.send 7 4) (mid [] (.holding [1])))).map (·.status) = some .running ∧
      (mid [] (.holding [9])).RegsSized ∧
      (next? (exec (.receive 2 1) (mid [] (.holding [9])))).map (·.status) = some .running ∧
      InRange (mid [] (.holding [9])).cfg.numRegisters 7 ∧
      InRange (mid [] (.holding [9])).cfg.numRegisters 0 := by decide

/-! ### Witnesses: the whole machine -/

theorem witness_InvariantHoldsAtReset : (documentConfig false).WellFormed ∧ State.reset.Inv := by decide
theorem witness_StepKeepsInvariant :
    (withRegs (at_ true 0 [1, 0, 255]) [7]).Inv ∧
      (next? (step (withRegs (at_ true 0 [1, 0, 255]) [7]))).map (fun t => (t.word 255, t.started)) =
        some (7, true) := by decide
theorem witness_EveryReachableStateMeetsInvariant :
    (documentConfig true).WellFormed ∧
      ∃ s, launch (documentConfig true) [([4, 0, 0], 0), ([5], 255)] = .ok s :=
  ⟨by decide, _, rfl⟩
/-- Every fault kind occurs: for FaultsArePrecise and the clauses of EachFaultHasItsCause. -/
theorem witness_EachFaultHasItsCause :
    [at_ true 254 [], at_ true 0 [8, 0, 0], at_ true 0 [2, 0, 8], at_ true 0 [1, 7, 256],
      at_ true 0 [6, 7, 5], at_ true 0 [6, 0, 257],
      { at_ true 0 [7, 3, 0] with netbuf := .holding [1] },
      { at_ true 0 [7, 0, 7] with netbuf := .holding [1, 2, 3, 4, 5] }].map
        (fun s => (after s).map fun r => (r.1, r.2.2.1)) =
      [some (.faulted, .fetchOutOfBounds), some (.faulted, .unknownOpcode),
        some (.faulted, .registerIndexOutOfBounds), some (.faulted, .memoryAddressOutOfBounds),
        some (.faulted, .registerBytesOutOfBounds), some (.faulted, .netPayloadTooLarge),
        some (.faulted, .netReceiveBufferTooSmall), some (.faulted, .registerBytesOutOfBounds)] := by
  decide
theorem witness_FaultsArePrecise :
    after (at_ true 3 [1, 7, -1]) = some (.faulted, 6, .memoryAddressOutOfBounds, 3, -1) := by decide
/-- Also for OnlyFetchAndJmpMovePc and the second clause of OnlyNetworkInstructionsTouchTheBuffer. -/
theorem witness_FaultRecordIsWrittenOnlyByFaults :
    (at_ false 0 [4, 9, 0]).cfg.netExt = false ∧
      (next? (step (at_ false 0 [4, 9, 0]))).map (·.status) = some .running := by decide
theorem witness_OnlyStoreChangesMemory :
    (withRegs (at_ true 0 [1, 0, 1]) [7]).MemoryOk ∧ (withRegs (at_ true 0 [1, 0, 1]) [7]).word 1 = 0 ∧
      (next? (step (withRegs (at_ true 0 [1, 0, 1]) [7]))).map (·.word 1) = some 7 := by decide
theorem witness_RegistersChangeOnlyByTheirWriters :
    (at_ true 0 [0, 7, 5]).RegsSized ∧ (at_ true 0 [0, 7, 5]).reg 7 = 0 ∧
      (next? (step (at_ true 0 [0, 7, 5]))).map (·.reg 7) = some 5 := by decide
theorem witness_OnlyNetworkInstructionsTouchTheBuffer :
    (at_ true 0 [6, 7, 4]).netbuf = .empty ∧
      (next? (step (at_ true 0 [6, 7, 4]))).map (·.netbuf) = some (.holding [0, 0, 0, 0]) := by decide
theorem witness_RunHasAtMostOneEnd :
    ∃ t, EndsAt (at_ true 253 [5, 0, 0]) t ∧ t.status = .halted :=
  ⟨(at_ true 253 [5, 0, 0]).runFor 1, ⟨by decide, 1, rfl⟩, by decide⟩
/-- Fuel 1 is just enough for HALT at 253 and fuel 0 is not (also for the monotone clause). -/
theorem witness_FuelledRunReportsEndOrOutOfFuel_ends :
    (at_ true 253 [5, 0, 0]).run 0 = .outOfFuel ∧
      (at_ true 253 [5, 0, 0]).run 1 = .ended ((at_ true 253 [5, 0, 0]).runFor 1) ∧
      (at_ true 253 [5, 0, 0]).run 2 = .ended ((at_ true 253 [5, 0, 0]).runFor 1) := ⟨rfl, rfl, rfl⟩
/-- Vector C-4: `JMP 0 0` at 0. -/
theorem witness_FuelledRunReportsEndOrOutOfFuel_loop :
    (at_ true 0 [4, 0, 0]).status = .running ∧ (at_ true 0 [4, 0, 0]).Fetches (.jmp 0 0) ∧
      (at_ true 0 [4, 0, 0]).run 2 = .outOfFuel := ⟨rfl, ⟨by decide, rfl⟩, rfl⟩
theorem witness_MemoryIsDeterminedByItsWords :
    (at_ true 0 [1, 7, 256]).MemoryOk ∧
      (at_ true 0 [1, 7, 256]).memory = [(0, 1), (4, 7), (9, 1)] := by decide
theorem readout_ignores_started (s : State) (b : Bool) :
    s.readout = ({ s with started := b } : State).readout := by
  have words : ∀ n a, ({ s with started := b } : State).wordsFrom a n = s.wordsFrom a n := by
    intro n
    induction n with
    | zero => exact fun _ => rfl
    | succ n ih => exact fun a => congrArg (s.word a :: ·) (ih (a + 1))
  simp only [State.readout, words]
theorem witness_ReadoutDeterminesTheState :
    (at_ true 0 [5]).Inv ∧ ({ at_ true 0 [5] with started := false } : State).Inv ∧
      (at_ true 0 [5]).cfg = ({ at_ true 0 [5] with started := false } : State).cfg ∧
      (at_ true 0 [5]).readout = ({ at_ true 0 [5] with started := false } : State).readout :=
  ⟨by decide, by decide, by decide, readout_ignores_started _ _⟩

/-! ### Witnesses: the host's ports and the assembler -/

theorem witness_LoadPortIsAllOrNothing :
    (createSession (documentConfig true)).MemoryOk ∧
      (createSession (documentConfig true)).started = false ∧
      (0 : Int) ≤ 254 ∧ (254 : Int) + ([1, 2] : List Word).length ≤ (documentConfig true).memorySize ∧
      ¬ (0 ≤ (255 : Int) ∧ (255 : Int) + ([1, 2] : List Word).length ≤ (documentConfig true).memorySize) ∧
      ¬ (0 ≤ (-1 : Int) ∧ (-1 : Int) + ([1, 2] : List Word).length ≤ (documentConfig true).memorySize) ∧
      (next? (step (createSession (documentConfig true)))).map (·.started) = some true := by decide
theorem witness_LaunchCopiesTheProgramVerbatim :
    (0 : Int) ≤ 253 ∧ (253 : Int) + ([5, 0, 0] : List Word).length ≤ (documentConfig true).memorySize := by
  decide
theorem witness_StepRunsThePlacedInstruction :
    State.reset.status = .running ∧ State.reset.MemoryOk ∧
      FetchInBounds State.reset.cfg State.reset.pc ∧
      decodeWords State.reset.cfg (tableWords 96 0x000000050000000300000007) = .ok (.receive 3 5, []) :=
  ⟨rfl, by decide, by decide, rfl⟩
theorem witness_AssemblyOfListingIsEncoding :
    ∀ i ∈ [Instr.load 7 (-2147483648), .halt 0 0], i.mnemonic ∈ enabled false := by
  simp [Instr.mnemonic, enabled]
theorem witness_AssembledTextIsThreeWordsPerLine :
    assemble (documentConfig false) "JMP -1 0\nHALT".toList = .ok [4, -1, 0, 5, 0, 0] := rfl
/-- A listing that fills a memory of six words to the last. -/
theorem witness_AssembledProgramIsWhatTheCoreDecodes :
    (config 8 6 defaultOpcodeMap).WellFormed ∧
      (∀ i ∈ [Instr.load 0 5, .halt 0 0], i.mnemonic ∈ enabled false) ∧
      3 * [Instr.load 0 5, .halt 0 0].length ≤ (config 8 6 defaultOpcodeMap).memorySize :=
  ⟨by decide, by simp [Instr.mnemonic, enabled], by decide⟩

end Sys2Proof.Tests
end

section
/-! PROOFS. The fetch, the decoder and the step read forwards: what each answers under the condition
that selects the answer (spec/30_encoding.md R63, R66, R67, R74). -/

namespace Sys2Proof.Machine

variable {s t : State} {i : Instr}

/-! ### Fetch -/

/-- A fetch in bounds, and only that, answers the window and the advanced state (30_encoding.md R63). -/
theorem State.fetch_eq_ok {f : Fetched} :
    s.fetch = .ok (f, t) ↔ FetchInBounds s.cfg s.pc ∧ f = s.window ∧ t = s.setPc (s.pc + 3) := by
  rcases s.fetch_cases with ⟨hb, e⟩ | ⟨hb, e⟩
  · rw [e]
    constructor
    · rintro ⟨⟩
      exact ⟨hb, rfl, rfl⟩
    · rintro ⟨-, rfl, rfl⟩
      rfl
  · rw [e]
    exact iff_of_false nofun fun h => hb h.1

/-- The step fetches after `started` is set, which the fetch does not look at. -/
theorem State.start_fetch_of_inBounds (hb : FetchInBounds s.cfg s.pc) :
    s.start.fetch = .ok (s.window, s.afterFetch) :=
  State.fetch_eq_ok.2 ⟨hb, rfl, rfl⟩

/-! ### Decode -/

/-- An opcode word decodes to no mnemonic exactly when no enabled one has it as its value
(30_encoding.md R66). -/
theorem decodeOpcode_eq_none {c : Config} {op : Word} :
    decodeOpcode c op = none ↔ ∀ m ∈ enabled c.netExt, c.opcodeMap.value m ≠ op := by
  simp [decodeOpcode]

/-- Such a word is rejected by name, whatever the operands are (30_encoding.md R66, R72). -/
theorem decode_of_no_enabled_value {c : Config} {op : Word}
    (h : ∀ m ∈ enabled c.netExt, c.opcodeMap.value m ≠ op) (a b : Word) :
    decode c op a b = .error (.unknownOpcode op) := by
  rw [decode, decodeOpcode_eq_none.2 h]

/-! ### Step -/

/-- The step of a window that decodes is the meaning of the instruction (30_encoding.md R74). -/
theorem step_of_fetches (hr : s.status = .running) (h : s.Fetches i) :
    step s = exec i s.afterFetch := by
  obtain ⟨hb, hd⟩ := h
  have hd' : decode s.afterFetch.cfg s.window.opcode s.window.operand1 s.window.operand2 = .ok i := hd
  simp only [step, hr, State.start_fetch_of_inBounds hb, hd']

/-- The step of an unknown opcode word is the fault of 30_encoding.md R67. -/
theorem step_of_fetchesUnknown (hr : s.status = .running) (h : s.FetchesUnknown) :
    step s = .next (s.afterFetch.raise ⟨.unknownOpcode, s.window.opcode⟩) := by
  obtain ⟨hb, hu⟩ := h
  have hd : decode s.afterFetch.cfg s.window.opcode s.window.operand1 s.window.operand2 =
      .error (.unknownOpcode s.window.opcode) := decode_of_no_enabled_value hu _ _
  simp only [step, hr, State.start_fetch_of_inBounds hb, hd]

/-- No step leads on from an ended state (60_exceptions.md R145). -/
theorem step_ne_next_of_not_running (hr : s.status ≠ .running) : step s ≠ .next t :=
  fun h => hr (step_cases h).1

/-- The fault of an executing instruction is recorded at its unfetched `pc` (30_encoding.md R68). -/
theorem State.afterFetch_raise_faultPc (k : Trap) : (s.afterFetch.raise k).faultPc = s.pc :=
  State.instructionOffset_setPc_add s.start s.pc

end Sys2Proof.Machine
end

section
/-! PROOFS. The statements about the fetch and about unknown opcodes (spec/30_encoding.md R63, R67). -/

namespace Sys2Proof.Machine

/-- Settles O7: `State.fetch_eq_ok` says when the fetch answers and what, `step_of_fetches` what the step
makes of it. -/
theorem fetchReadsThreeWordsInBounds : Obligations.FetchReadsThreeWordsInBounds := by
  intro s hr
  constructor
  · constructor
    · rintro ⟨f, t, h⟩
      exact (State.fetch_eq_ok.1 h).1
    · exact fun hb => ⟨_, _, State.fetch_eq_ok.2 ⟨hb, rfl, rfl⟩⟩
  · intro f t h
    obtain ⟨hb, rfl, rfl⟩ := State.fetch_eq_ok.1 h
    exact ⟨rfl, rfl, fun i hd => step_of_fetches hr ⟨hb, hd⟩⟩

/-- Settles O8: the step raises on the state after the fetch, so only `started`, `pc`, the status and the
fault record differ; the state it answers is Faulted, and no step leads on from it. -/
theorem unknownOpcodeFaultsAfterAdvance : Obligations.UnknownOpcodeFaultsAfterAdvance := by
  intro s hr hu
  refine ⟨_, step_of_fetchesUnknown hr hu, rfl, rfl, rfl, State.afterFetch_raise_faultPc _, rfl, rfl,
    fun _ _ => rfl, rfl, rfl, fun u => ?_⟩
  exact step_ne_next_of_not_running (by simp)

end Sys2Proof.Machine
end

section
/-! PROOFS. The decoder on the opcode values of the map, and what the checked operations answer under
the condition that selects the answer (spec/30_encoding.md R65, R66, R69 to R71; 60_exceptions.md
R144). -/

namespace Sys2Proof

variable {c : Config}

/-! ### Decoding an opcode value -/

/-- Every mnemonic is enabled with the network extension (30_encoding.md R66). -/
theorem mem_enabled_true (m : Mnemonic) : m ∈ enabled true := by
  cases m <;> simp [enabled]

/-- An admitted opcode map gives no two mnemonics one value: its list of values has no repetition
(00_scope.md R6). -/
theorem OpcodeMap.WellFormed.value_injective {o : OpcodeMap} (h : o.WellFormed) :
    Function.Injective o.value := by
  have hnodup : ((enabled true).map o.value).Nodup := h.1
  exact fun m m' e => List.inj_on_of_nodup_map hnodup (mem_enabled_true m) (mem_enabled_true m') e

/-- Under an admitted map the value of an enabled mnemonic decodes to that mnemonic
(30_encoding.md R65, R66). -/
theorem decodeOpcode_value (hc : c.opcodeMap.WellFormed) {m : Mnemonic} (hm : m ∈ enabled c.netExt) :
    decodeOpcode c (c.opcodeMap.value m) = some m := by
  cases h : decodeOpcode c (c.opcodeMap.value m) with
  | none => exact absurd rfl (Machine.decodeOpcode_eq_none.1 h m hm)
  | some m' => exact congrArg some (hc.value_injective (Machine.decodeOpcode_some h).2)

/-- Its triple decodes to the instruction with the operand words whole (30_encoding.md R60, R61). -/
theorem decode_value (hc : c.opcodeMap.WellFormed) {m : Mnemonic} (hm : m ∈ enabled c.netExt)
    (a b : Word) : decode c (c.opcodeMap.value m) a b = .ok (m.instr a b) := by
  rw [decode, decodeOpcode_value hc hm]

/-- The six base mnemonics are enabled whatever `NET_EXT` is (30_encoding.md R66). -/
theorem mem_enabled_of_mem_base {m : Mnemonic} (h : m ∈ enabled false) (x : Bool) : m ∈ enabled x :=
  List.mem_append_left _ (by simpa [enabled] using h)

end Sys2Proof

namespace Sys2Proof.Machine

variable {s : State} {c : Config}

/-! ### Checks that fail -/

/-- A register index out of range is the word of its fault (30_encoding.md R70). -/
theorem checkRegister_of_not_inRange {r : Word} (h : ¬ InRange c.numRegisters r) :
    checkRegister c r = some ⟨.registerIndexOutOfBounds, r⟩ := if_neg h

/-- An address out of range is the word of its fault (30_encoding.md R71). -/
theorem checkAddress_of_not_inRange {a : Word} (h : ¬ InRange c.memorySize a) :
    checkAddress c a = some ⟨.memoryAddressOutOfBounds, a⟩ := if_neg h

/-! ### What an effect and a fault leave unchanged -/

/-- A fault raised after the fetch of the instruction at `p` changes the status and the fault record and
nothing else (60_exceptions.md R144; 30_encoding.md R68). -/
theorem State.faultedFrom_raise {p : Word} (hp : s.pc = p + 3) (k : Trap) :
    FaultedFrom s k.kind p k.value (s.raise k) := by
  have hpc : (s.raise k).faultPc = p := by simp [hp]
  exact ⟨rfl, rfl, hpc, rfl, rfl, rfl, rfl, rfl, rfl, rfl⟩

/-- A register write leaves every other register alone. -/
theorem State.sameRegsBut_setReg (s : State) (i : Nat) (v : Word) :
    SameRegsBut (· = i) s (s.setReg i v) :=
  ⟨RegFile.write_length s.regs i v, fun _ hr => State.setReg_reg_other s hr v⟩

/-- A register write leaves all memory alone. -/
theorem State.sameWords_setReg (s : State) (i : Nat) (v : Word) : SameWords s (s.setReg i v) :=
  fun _ _ => rfl

/-- A register write leaves the configuration, `started`, the status and the fault record alone. -/
theorem State.sameSession_setReg (s : State) (i : Nat) (v : Word) : SameSession s (s.setReg i v) :=
  ⟨rfl, rfl, rfl, rfl, rfl, rfl⟩

/-- A word written leaves every other word alone (20_memory.md R43). -/
theorem State.sameWordsBut_setWord (s : State) (a : Nat) (v : Word) :
    SameWordsBut (· = a) s (s.setWord a v) :=
  fun _ hb => State.setWord_word_other s hb v

/-- A word written leaves the configuration, `started`, the status and the fault record alone. -/
theorem State.sameSession_setWord (s : State) (a : Nat) (v : Word) : SameSession s (s.setWord a v) :=
  ⟨rfl, rfl, rfl, rfl, rfl, rfl⟩

/-- A word written inside the address space keeps memory canonical and inside it (20_memory.md R41). -/
theorem State.MemoryOk.setWord (hm : s.MemoryOk) {a : Nat} (ha : a < s.cfg.memorySize) (v : Word) :
    (s.setWord a v).MemoryOk := by
  obtain ⟨hwf, hin⟩ := hm
  exact ⟨Memory.writeWord_wf hwf a v, Memory.writeWord_within hin ha v⟩

end Sys2Proof.Machine
end

section
/-! PROOFS. LOAD and STORE (spec/40_data_movement.md R90, R92): the answer of each under its checks, and
the two statements. -/

namespace Sys2Proof.Machine

variable {s : State} {reg imm addr : Word}

/-! ### LOAD -/

/-- LOAD with a valid index writes the immediate whole (40_data_movement.md R90). -/
theorem exec_load_of_inRange (hr : InRange s.cfg.numRegisters reg) :
    exec (.load reg imm) s = .next (s.setReg reg.toNat imm) := by
  simp only [exec, execLoad, checkRegister_eq_none.2 hr, State.guarded_none,
    State.guarded_nil]

/-- LOAD with an invalid index raises its fault (40_data_movement.md R90). -/
theorem exec_load_of_not_inRange (hr : ¬ InRange s.cfg.numRegisters reg) :
    exec (.load reg imm) s = .next (s.raise ⟨.registerIndexOutOfBounds, reg⟩) := by
  simp only [exec, execLoad, checkRegister_of_not_inRange hr, State.guarded_some]

/-! ### STORE -/

/-- STORE with valid operands writes the register's word at the address (40_data_movement.md R92). -/
theorem exec_store_of_inRange (hr : InRange s.cfg.numRegisters reg)
    (ha : InRange s.cfg.memorySize addr) :
    exec (.store reg addr) s = .next (s.setWord addr.toNat (s.reg reg.toNat)) := by
  simp only [exec, execStore, checkRegister_eq_none.2 hr, checkAddress_eq_none.2 ha,
    State.guarded_none, State.guarded_nil]

/-- STORE with an invalid index raises its fault, whatever the address is (40_data_movement.md R92,
decision D6). -/
theorem exec_store_of_not_inRange (hr : ¬ InRange s.cfg.numRegisters reg) :
    exec (.store reg addr) s = .next (s.raise ⟨.registerIndexOutOfBounds, reg⟩) := by
  simp only [exec, execStore, checkRegister_of_not_inRange hr, State.guarded_some]

/-- STORE with a valid index and an invalid address raises the address fault (40_data_movement.md
R92). -/
theorem exec_store_of_address_not_inRange (hr : InRange s.cfg.numRegisters reg)
    (ha : ¬ InRange s.cfg.memorySize addr) :
    exec (.store reg addr) s = .next (s.raise ⟨.memoryAddressOutOfBounds, addr⟩) := by
  simp only [exec, execStore, checkRegister_eq_none.2 hr, checkAddress_of_not_inRange ha,
    State.guarded_none, State.guarded_some]

/-! ### The statements -/

/-- Settles O11: the opcode value decodes by `decode_value`; `exec` is the word write or the raise of the
first failing check, and each of these has its frame. -/
theorem storeWritesWordOrFaults : Obligations.StoreWritesWordOrFaults := by
  refine ⟨fun c reg addr hc => ?decodes, fun s reg addr hm hr ha => ?writes,
    fun s reg addr p hp hr => ?badRegister, fun s reg addr p hp hr ha => ?badAddress⟩
  case decodes =>
    exact decode_value (m := .store) hc (mem_enabled_of_mem_base (by decide) _) reg addr
  case writes =>
    exact ⟨_, exec_store_of_inRange hr ha, State.setWord_word_same hm.1 _ _,
      State.sameWordsBut_setWord _ _ _, hm.setWord ha.toNat_lt _, rfl, rfl, rfl,
      State.sameSession_setWord _ _ _⟩
  case badRegister => exact ⟨_, exec_store_of_not_inRange hr, State.faultedFrom_raise hp _⟩
  case badAddress => exact ⟨_, exec_store_of_address_not_inRange hr ha, State.faultedFrom_raise hp _⟩

/-- Settles O10: the opcode value decodes by `decode_value`; `exec` is the register write or the raise,
and each has its frame. A valid index names a register because the file has `NUM_REGISTERS` of them. -/
theorem loadWritesImmediateOrFaults : Obligations.LoadWritesImmediateOrFaults := by
  have decodes (c : Config) (reg imm : Word) (hc : c.opcodeMap.WellFormed) :
      decode c c.opcodeMap.load reg imm = .ok (.load reg imm) :=
    decode_value (m := .load) hc (mem_enabled_of_mem_base (by decide) _) reg imm
  refine ⟨decodes, fun x => decodes (documentConfig x) 0 0 ?defaultMap,
    fun s reg imm hs hr => ?writes, fun s reg imm p hp hr => ?badRegister⟩
  case defaultMap => exact show defaultOpcodeMap.WellFormed by decide
  case writes =>
    have hreg : reg.toNat < s.regs.length := hs ▸ hr.toNat_lt
    exact ⟨_, exec_load_of_inRange hr, State.setReg_reg_same hreg _, State.sameRegsBut_setReg _ _ _,
      State.sameWords_setReg _ _ _, rfl, rfl, State.sameSession_setReg _ _ _⟩
  case badRegister => exact ⟨_, exec_load_of_not_inRange hr, State.faultedFrom_raise hp _⟩

end Sys2Proof.Machine
end

section
/-! PROOFS. ADD and SUB (spec/41_alu.md R100, R101): the checks of two register operands in order, the
answer of each instruction under its checks, and the two statements. -/

namespace Sys2Proof.Machine

variable {s : State} {regA regB : Word}

/-! ### Two register operands -/

/-- An effect behind the checks of two register operands happens when both are valid. -/
theorem State.guarded_registers_of_inRange (ha : InRange s.cfg.numRegisters regA)
    (hb : InRange s.cfg.numRegisters regB) (e : State → State) :
    s.guarded [checkRegister s.cfg regA, checkRegister s.cfg regB] e = e s := by
  rw [checkRegister_eq_none.2 ha, checkRegister_eq_none.2 hb, State.guarded_none, State.guarded_none,
    State.guarded_nil]

/-- An invalid first operand is the fault, whatever the checks after it say (30_encoding.md R69,
decision D6). -/
theorem State.guarded_register_of_not_inRange (ha : ¬ InRange s.cfg.numRegisters regA)
    (checks : List (Option Trap)) (e : State → State) :
    s.guarded (checkRegister s.cfg regA :: checks) e = s.raise ⟨.registerIndexOutOfBounds, regA⟩ := by
  rw [checkRegister_of_not_inRange ha, State.guarded_some]

/-- An invalid second operand is the fault when the first is valid (30_encoding.md R69). -/
theorem State.guarded_registers_of_second_not_inRange (ha : InRange s.cfg.numRegisters regA)
    (hb : ¬ InRange s.cfg.numRegisters regB) (e : State → State) :
    s.guarded [checkRegister s.cfg regA, checkRegister s.cfg regB] e =
      s.raise ⟨.registerIndexOutOfBounds, regB⟩ := by
  rw [checkRegister_eq_none.2 ha, State.guarded_none, State.guarded_register_of_not_inRange hb]

/-- A valid index names a register, so the register reads what was written to it (10_state.md R20). -/
theorem State.RegsSized.setReg_reg_same (hs : s.RegsSized) (ha : InRange s.cfg.numRegisters regA)
    (v : Word) : (s.setReg regA.toNat v).reg regA.toNat = v :=
  State.setReg_reg_same (hs ▸ ha.toNat_lt) v

/-! ### ADD -/

/-- ADD with valid operands writes the wrapped sum of the old values (41_alu.md R100). -/
theorem exec_add_of_inRange (ha : InRange s.cfg.numRegisters regA)
    (hb : InRange s.cfg.numRegisters regB) :
    exec (.add regA regB) s =
      .next (s.setReg regA.toNat (wrap32 ((s.reg regA.toNat).toInt + (s.reg regB.toNat).toInt))) :=
  congrArg Host.Outcome.next (State.guarded_registers_of_inRange ha hb _)

/-- ADD with an invalid regA raises its fault, whatever regB is (41_alu.md R100, decision D6). -/
theorem exec_add_of_regA_not_inRange (ha : ¬ InRange s.cfg.numRegisters regA) :
    exec (.add regA regB) s = .next (s.raise ⟨.registerIndexOutOfBounds, regA⟩) :=
  congrArg Host.Outcome.next (State.guarded_register_of_not_inRange ha _ _)

/-- ADD with a valid regA and an invalid regB raises the fault of regB (41_alu.md R100). -/
theorem exec_add_of_regB_not_inRange (ha : InRange s.cfg.numRegisters regA)
    (hb : ¬ InRange s.cfg.numRegisters regB) :
    exec (.add regA regB) s = .next (s.raise ⟨.registerIndexOutOfBounds, regB⟩) :=
  congrArg Host.Outcome.next (State.guarded_registers_of_second_not_inRange ha hb _)

/-! ### SUB -/

/-- SUB with valid operands writes the wrapped difference of the old values (41_alu.md R101). -/
theorem exec_sub_of_inRange (ha : InRange s.cfg.numRegisters regA)
    (hb : InRange s.cfg.numRegisters regB) :
    exec (.sub regA regB) s =
      .next (s.setReg regA.toNat (wrap32 ((s.reg regA.toNat).toInt - (s.reg regB.toNat).toInt))) :=
  congrArg Host.Outcome.next (State.guarded_registers_of_inRange ha hb _)

/-- SUB with an invalid regA raises its fault, whatever regB is (41_alu.md R101, decision D6). -/
theorem exec_sub_of_regA_not_inRange (ha : ¬ InRange s.cfg.numRegisters regA) :
    exec (.sub regA regB) s = .next (s.raise ⟨.registerIndexOutOfBounds, regA⟩) :=
  congrArg Host.Outcome.next (State.guarded_register_of_not_inRange ha _ _)

/-- SUB with a valid regA and an invalid regB raises the fault of regB (41_alu.md R101). -/
theorem exec_sub_of_regB_not_inRange (ha : InRange s.cfg.numRegisters regA)
    (hb : ¬ InRange s.cfg.numRegisters regB) :
    exec (.sub regA regB) s = .next (s.raise ⟨.registerIndexOutOfBounds, regB⟩) :=
  congrArg Host.Outcome.next (State.guarded_registers_of_second_not_inRange ha hb _)

/-- The wrapped difference of a word and itself is zero: SUB with equal operands clears the register
(41_alu.md R101). -/
theorem wrap32_sub_self (v : Word) : wrap32 (v.toInt - v.toInt) = 0 := by
  rw [wrap32_sub, sub_self]

/-! ### The statements -/

/-- Settles O13: the opcode value decodes by `decode_value`; `exec` is the register write or the raise of
the first failing check, and each of these has its frame. -/
theorem addWritesWrappedSumOrFaults : Obligations.AddWritesWrappedSumOrFaults := by
  refine ⟨fun c a b hc => ?decodes, fun s a b hs ha hb => ?writes,
    fun s a b p hp ha => ?badRegA, fun s a b p hp ha hb => ?badRegB⟩
  case decodes => exact decode_value (m := .add) hc (mem_enabled_of_mem_base (by decide) _) a b
  case writes =>
    exact ⟨_, exec_add_of_inRange ha hb, hs.setReg_reg_same ha _, State.sameRegsBut_setReg _ _ _,
      State.sameWords_setReg _ _ _, rfl, rfl, State.sameSession_setReg _ _ _⟩
  case badRegA => exact ⟨_, exec_add_of_regA_not_inRange ha, State.faultedFrom_raise hp _⟩
  case badRegB => exact ⟨_, exec_add_of_regB_not_inRange ha hb, State.faultedFrom_raise hp _⟩

/-- Settles O14: as for ADD, with the difference for the sum; on equal operands the difference written is
that of one word and itself. -/
theorem subWritesWrappedDifferenceOrFaults : Obligations.SubWritesWrappedDifferenceOrFaults := by
  refine ⟨fun c a b hc => ?decodes, fun s a b hs ha hb => ?writes,
    fun s a b p hp ha => ?badRegA, fun s a b p hp ha hb => ?badRegB⟩
  case decodes => exact decode_value (m := .sub) hc (mem_enabled_of_mem_base (by decide) _) a b
  case writes =>
    refine ⟨_, exec_sub_of_inRange ha hb, hs.setReg_reg_same ha _, ?clears,
      State.sameRegsBut_setReg _ _ _, State.sameWords_setReg _ _ _, rfl, rfl,
      State.sameSession_setReg _ _ _⟩
    case clears =>
      rintro rfl
      rw [hs.setReg_reg_same ha, wrap32_sub_self]
  case badRegA => exact ⟨_, exec_sub_of_regA_not_inRange ha, State.faultedFrom_raise hp _⟩
  case badRegB => exact ⟨_, exec_sub_of_regB_not_inRange ha hb, State.faultedFrom_raise hp _⟩

end Sys2Proof.Machine
end

section
/-! PROOFS. JMP and HALT (spec/42_control.md R110, R112): the step out of bounds, runs that keep an
invariant, the answer of each instruction, and the two statements. -/

namespace Sys2Proof.Machine

variable {s t : State} {addr unused u v : Word}

/-! ### The step of a fetch out of bounds -/

/-- The step of a window that leaves memory is the fetch fault, with `pc` kept (30_encoding.md R64). -/
theorem step_of_not_fetchInBounds (hr : s.status = .running) (hb : ¬ FetchInBounds s.cfg s.pc) :
    step s = .next (s.start.raiseAt s.pc ⟨.fetchOutOfBounds, s.pc⟩) := by
  have hf : s.start.fetch = .error ⟨.fetchOutOfBounds, s.pc⟩ := if_neg hb
  simp only [step, hr, hf]

/-! ### Runs that keep an invariant -/

/-- A run goes on from the next state (70_reset_and_hazards.md R170). -/
theorem State.runFor_succ_of_step (h : step s = .next t) (n : Nat) :
    s.runFor (n + 1) = t.runFor n := by
  rw [State.runFor, h]

/-- A property of running states that every step keeps makes the run infinite: no state of the run is
an end. -/
theorem runsForever_of_invariant {P : State → Prop} (hrunning : ∀ s, P s → s.status = .running)
    (hstep : ∀ s, P s → ∃ t, step s = .next t ∧ P t) (hs : P s) : RunsForever s := by
  intro n
  induction n generalizing s with
  | zero => exact hrunning s hs
  | succ n ih =>
    obtain ⟨t, hst, ht⟩ := hstep s hs
    rw [State.runFor_succ_of_step hst]
    exact ih ht

/-! ### JMP -/

/-- JMP writes its first operand to `pc`, whatever both operands are (42_control.md R110). -/
theorem exec_jmp : exec (.jmp addr unused) s = .next (s.setPc addr) := rfl

/-- A `pc` write leaves all memory alone. -/
theorem State.sameWords_setPc (s : State) (p : Word) : SameWords s (s.setPc p) :=
  fun _ _ => rfl

/-- A `pc` write leaves the configuration, `started`, the status and the fault record alone. -/
theorem State.sameSession_setPc (s : State) (p : Word) : SameSession s (s.setPc p) :=
  ⟨rfl, rfl, rfl, rfl, rfl, rfl⟩

/-- The running core is at a jump to its own offset. -/
def State.AtSelfJump (s : State) : Prop :=
  s.status = .running ∧ ∃ unused, s.Fetches (.jmp s.pc unused)

/-- A jump to its own offset undoes the advance of its fetch, so its step only sets `started`. -/
theorem State.AtSelfJump.step_eq (h : s.AtSelfJump) : step s = .next s.start := by
  obtain ⟨hr, _, hf⟩ := h
  calc step s = exec (.jmp s.pc _) s.afterFetch := step_of_fetches hr hf
    _ = .next (s.afterFetch.setPc s.pc) := exec_jmp
    _ = .next s.start := rfl

/-- The fetch does not look at `started`, so the step of such a jump comes back to it. -/
theorem State.AtSelfJump.start (h : s.AtSelfJump) : s.start.AtSelfJump := h

/-- A jump to its own offset loops for ever (42_control.md R110, R114). -/
theorem State.AtSelfJump.runsForever (h : s.AtSelfJump) : RunsForever s :=
  runsForever_of_invariant (fun _ hs => hs.1) (fun _ hs => ⟨_, hs.step_eq, hs.start⟩) h

/-! ### HALT -/

/-- HALT enters Halted, whatever its operands are (42_control.md R112). -/
theorem exec_halt : exec (.halt u v) s = .next s.halt := rfl

/-- Entering Halted leaves all memory alone. -/
theorem State.sameWords_halt (s : State) : SameWords s s.halt := fun _ _ => rfl

/-- A fetched HALT halts one instruction past its offset (42_control.md R112). -/
theorem step_of_fetches_halt (hr : s.status = .running) (h : s.Fetches (.halt u v)) :
    step s = .next s.afterFetch.halt := by
  rw [step_of_fetches hr h, exec_halt]

/-- The line of the mnemonic alone is HALT with two zero operands (30_encoding.md R81). -/
theorem parseLine_halt : parseLine ['H', 'A', 'L', 'T'] = some (.halt 0 0) := rfl

/-! ### The statements -/

/-- Settles O17: the opcode value decodes by `decode_value`; `exec` is the `pc` write, with its frame; a
target out of bounds makes the next step the fetch fault at the target; and a jump to its own offset is
an invariant of its run. -/
theorem jmpSetsPcAndFaultsAtTheNextFetch : Obligations.JmpSetsPcAndFaultsAtTheNextFetch := by
  refine ⟨fun c addr unused hc => ?decodes, fun s addr unused => ?jumps,
    fun s unused hr hf => ?loops⟩
  case decodes =>
    exact decode_value (m := .jmp) hc (mem_enabled_of_mem_base (by decide) _) addr unused
  case jumps =>
    refine ⟨_, exec_jmp, rfl, rfl, State.sameWords_setPc _ _, rfl, State.sameSession_setPc _ _,
      fun _ => exec_jmp, fun hr hb => ?badTarget⟩
    case badTarget =>
      exact ⟨_, step_of_not_fetchInBounds (s := s.setPc addr) hr hb, rfl, rfl, rfl, rfl, rfl⟩
  case loops => exact State.AtSelfJump.runsForever ⟨hr, unused, hf⟩

/-- Settles O18: the opcode value decodes by `decode_value` and the line by `parseLine_halt`; `exec` is
the entry to Halted, which keeps `pc`, so the step keeps the advance of the fetch; and a window out of
bounds makes the step the fetch fault instead. -/
theorem haltEntersHalted : Obligations.HaltEntersHalted := by
  refine ⟨fun c u v hc => ?decodes, fun c => ?assembles, fun s u v => ?halts,
    fun s u v hr hf => ?steps, fun s hr hb => ?fetchFault⟩
  case decodes => exact decode_value (m := .halt) hc (mem_enabled_of_mem_base (by decide) _) u v
  case assembles =>
    have hencode := (Laws.EncodedShape.halt 0 0).1 c
    exact ⟨parseLine_halt, hencode⟩
  case halts =>
    exact ⟨_, exec_halt, rfl, rfl, rfl, State.sameWords_halt s, rfl, rfl, rfl, rfl, rfl, rfl,
      fun _ _ => exec_halt⟩
  case steps => exact ⟨_, step_of_fetches_halt hr hf, rfl, rfl⟩
  case fetchFault => exact ⟨_, step_of_not_fetchInBounds hr hb, rfl, rfl⟩

end Sys2Proof.Machine
end

section
/-! PROOFS. The created session and the launch of one program (spec/70_reset_and_hazards.md R160, R163):
what a new session reads as, and what the load port writes into it. -/

namespace Sys2Proof.Machine

/-! ### A created session -/

/-- Every register of a created session is 0, and so is what stands in for one beyond the file. -/
@[simp] theorem createSession_reg (c : Config) (r : Nat) : (createSession c).reg r = 0 :=
  List.getElem?_getD_replicate_default_eq 0 c.numRegisters r

/-- Every memory word of a created session is 0 (70_reset_and_hazards.md R163). -/
@[simp] theorem createSession_word (c : Config) (a : Nat) : (createSession c).word a = 0 :=
  Memory.readWord_nil a

/-! ### Loading -/

/-- Before the first step a load that fits writes its words into memory, and that is all it does
(70_reset_and_hazards.md R164). -/
theorem State.load_of_fits {s : State} {ws : List Word} {offset : Int} (hs : s.started = false)
    (h0 : 0 ≤ offset) (hfit : offset + ws.length ≤ s.cfg.memorySize) :
    s.load ws offset =
      .loaded ws.length { s with memory := s.memory.writeWords offset.toNat ws } := by
  rw [State.load, hs, if_neg Bool.false_ne_true, if_pos ⟨h0, hfit⟩]

/-- A launch goes on from the state that its first load answers (70_reset_and_hazards.md R165). -/
theorem loadAll_cons_of_loaded {s t : State} {ws : List Word} {offset : Int} {n : Nat}
    (h : s.load ws offset = .loaded n t) (rest : List (List Word × Int)) :
    loadAll s ((ws, offset) :: rest) = loadAll t rest := by
  simp only [loadAll, h]

/-- The launch of one program that fits is the created session with the program's words written into its
empty memory. -/
theorem launch_of_fits {c : Config} {ws : List Word} {offset : Int} (h0 : 0 ≤ offset)
    (hfit : offset + ws.length ≤ c.memorySize) :
    launch c [(ws, offset)] =
      .ok { createSession c with memory := Memory.writeWords [] offset.toNat ws } :=
  loadAll_cons_of_loaded (State.load_of_fits (s := createSession c) rfl h0 hfit) []

/-! ### The statements -/

/-- Settles O43: the launch is the created session with the program written into the empty memory
(`launch_of_fits`), which reads as the program inside the written range and as the empty memory outside
it. -/
theorem launchCopiesTheProgramVerbatim : Obligations.LaunchCopiesTheProgramVerbatim := by
  refine ⟨createSession_word, fun c ws offset h0 hfit =>
    ⟨_, launch_of_fits h0 hfit, fun i hi => ?program, fun a ha => ?elsewhere, rfl⟩⟩
  case program =>
    have hempty : Memory.wf [] := ⟨.nil, nofun⟩
    exact Memory.readWord_writeWords_inside hempty offset.toNat ws hi
  case elsewhere => exact (Memory.readWord_writeWords_outside [] ha).trans (Memory.readWord_nil a)

/-- Settles O28: the registers and the memory words read 0 by `createSession_reg` and
`createSession_word`; every other field stands in the created session as stated. -/
theorem sessionStartsAtTheStatedValues : Obligations.SessionStartsAtTheStatedValues := fun c =>
  ⟨State.initial_cfg c, List.length_replicate, createSession_reg c, createSession_word c,
    State.initial_pc c, State.initial_status c, State.initial_faultKind c, State.initial_faultPc c,
    State.initial_faultValue c, State.initial_started c, State.initial_netbuf c⟩

end Sys2Proof.Machine
end

section
/-! PROOFS. Decoding and encoding are inverse to each other, and which opcode words are rejected
(spec/30_encoding.md R60, R65, R66). -/

namespace Sys2Proof

variable {c : Config}

/-! ### An instruction is its mnemonic and its two operands -/

@[simp] theorem Mnemonic.instr_mnemonic (m : Mnemonic) (a b : Word) : (m.instr a b).mnemonic = m := by
  cases m <;> rfl

@[simp] theorem Mnemonic.instr_operand1 (m : Mnemonic) (a b : Word) : (m.instr a b).operand1 = a := by
  cases m <;> rfl

@[simp] theorem Mnemonic.instr_operand2 (m : Mnemonic) (a b : Word) : (m.instr a b).operand2 = b := by
  cases m <;> rfl

/-- The mnemonic and the operands determine the instruction (30_encoding.md R61). -/
@[simp] theorem Instr.mnemonic_instr_operands (i : Instr) :
    i.mnemonic.instr i.operand1 i.operand2 = i := by
  cases i <;> rfl

/-! ### What decoding answers -/

/-- A triple decodes to the instruction of the enabled mnemonic that its opcode word is the value of. -/
theorem decode_eq_ok {op a b : Word} {i : Instr} (h : decode c op a b = .ok i) :
    ∃ m ∈ enabled c.netExt, c.opcodeMap.value m = op ∧ i = m.instr a b := by
  cases hm : decodeOpcode c op with
  | none => simp [decode, hm] at h
  | some m =>
    obtain ⟨hen, hval⟩ := Machine.decodeOpcode_some hm
    simp only [decode, hm, Except.ok.injEq] at h
    exact ⟨m, hen, hval, h.symm⟩

/-- A triple is rejected exactly when its opcode word is the value of no enabled mnemonic, and then by
that word (30_encoding.md R66, R72). -/
theorem decode_eq_error {op a b : Word} {e : DecodeReject} : decode c op a b = .error e ↔
    e = .unknownOpcode op ∧ ∀ m ∈ enabled c.netExt, c.opcodeMap.value m ≠ op := by
  constructor
  · intro h
    cases hm : decodeOpcode c op with
    | none =>
      simp only [decode, hm, Except.error.injEq] at h
      exact ⟨h.symm, Machine.decodeOpcode_eq_none.1 hm⟩
    | some m => simp [decode, hm] at h
  · rintro ⟨rfl, h⟩
    exact Machine.decode_of_no_enabled_value h a b

/-- Under an admitted map the value of a mnemonic that is not enabled is rejected (30_encoding.md
R66). -/
theorem decode_value_of_not_enabled (hc : c.opcodeMap.WellFormed) {m : Mnemonic}
    (hm : m ∉ enabled c.netExt) (a b : Word) :
    decode c (c.opcodeMap.value m) a b = .error (.unknownOpcode (c.opcodeMap.value m)) :=
  decode_eq_error.2 ⟨rfl, fun _ hen hval => hm (hc.value_injective hval ▸ hen)⟩

/-- The triple of a well-formed instruction decodes to it. -/
theorem decode_encoded (hc : c.opcodeMap.WellFormed) {i : Instr} (hi : i.WellFormed c) :
    decode c (c.opcodeMap.value i.mnemonic) i.operand1 i.operand2 = .ok i := by
  rw [decode_value hc hi, Instr.mnemonic_instr_operands]

/-! ### The statements -/

/-- Settles O1: the encoding is the triple of the instruction's own mnemonic and operands, which
`decode_encoded` reads back. -/
theorem decodeOfEncodeIsIdentity : Obligations.DecodeOfEncodeIsIdentity := by
  intro c i rest hc hi
  have hd : decode c (c.opcodeMap.value i.mnemonic) i.operand1 i.operand2 = .ok i :=
    decode_encoded hc hi
  simp only [encode, List.cons_append, List.nil_append, decodeWords, hd]

/-- Settles O2: the decoded instruction is made of the mnemonic found and the operand words given. -/
theorem encodeOfDecodeIsIdentity : Obligations.EncodeOfDecodeIsIdentity := by
  intro c op a b i h
  obtain ⟨m, hen, rfl, rfl⟩ := decode_eq_ok h
  simp [encode, Instr.WellFormed, hen]

/-- Settles O3: `decode_eq_error`, and SEND and RECEIVE are not enabled without the extension. -/
theorem decodeRejectsExactlyUnknownOpcodes : Obligations.DecodeRejectsExactlyUnknownOpcodes := by
  refine ⟨fun _ _ _ _ _ => decode_eq_error, fun c a b hc hext => ⟨?send, ?receive⟩⟩
  case send => exact decode_value_of_not_enabled (m := .send) hc (by simp [hext, enabled]) a b
  case receive => exact decode_value_of_not_enabled (m := .receive) hc (by simp [hext, enabled]) a b

/-- The default map is admitted (00_scope.md R6, decision D1). -/
theorem defaultOpcodeMap_wellFormed : Machine.defaultOpcodeMap.WellFormed := by decide

/-- Settles O4: the words 0 to 7 are the values of the default map, read by `decode_value` where the
mnemonic is enabled and rejected where it is not; the other three are the value of no mnemonic. -/
theorem defaultOpcodeWordsDecode : Obligations.DefaultOpcodeWordsDecode := by
  have known (x : Bool) {m : Mnemonic} (hm : m ∈ enabled x) (a b : Word) :
      decode (Machine.documentConfig x) (Machine.defaultOpcodeMap.value m) a b = .ok (m.instr a b) :=
    decode_value (c := Machine.documentConfig x) defaultOpcodeMap_wellFormed hm a b
  have base (x : Bool) {m : Mnemonic} (hm : m ∈ enabled false) :=
    known x (mem_enabled_of_mem_base hm x)
  have disabled {m : Mnemonic} (hm : m ∉ enabled false) :=
    decode_value_of_not_enabled (c := Machine.documentConfig false) defaultOpcodeMap_wellFormed hm
  have unknown (x : Bool) {op : Word}
      (h : ∀ m ∈ enabled true, Machine.defaultOpcodeMap.value m ≠ op) :=
    Machine.decode_of_no_enabled_value (c := Machine.documentConfig x)
      fun m _ => h m (mem_enabled_true m)
  constructor
  · exact fun x a b => ⟨base x (m := .load) (by decide) a b, base x (m := .store) (by decide) a b,
      base x (m := .add) (by decide) a b, base x (m := .sub) (by decide) a b,
      base x (m := .jmp) (by decide) a b, base x (m := .halt) (by decide) a b,
      unknown x (by decide) a b, unknown x (by decide) a b, unknown x (by decide) a b⟩
  · exact fun a b => ⟨known true (m := .send) (by decide) a b,
      known true (m := .receive) (by decide) a b,
      disabled (m := .send) (by decide) a b, disabled (m := .receive) (by decide) a b⟩

end Sys2Proof
end

section
/-! PROOFS. What one instruction and one step can do, said once: every meaning is an effect behind its
checks, and a step is a fetch fault, an unknown opcode, a failed check or an effect (spec/30_encoding.md
R69, R74). -/

namespace Sys2Proof

open Machine

/-! ### An instruction is its effect behind its checks -/

/-- The operand checks of an instruction, in their order (30_encoding.md R69 to R71, 43_network.md R121,
R124). -/
def Instr.checks (s : State) : Instr → List (Option Trap)
  | .load reg _        => [checkRegister s.cfg reg]
  | .store reg addr    => [checkRegister s.cfg reg, checkAddress s.cfg addr]
  | .add regA regB     => [checkRegister s.cfg regA, checkRegister s.cfg regB]
  | .sub regA regB     => [checkRegister s.cfg regA, checkRegister s.cfg regB]
  | .jmp _ _           => []
  | .halt _ _          => []
  | .send reg size     => [checkRegister s.cfg reg, checkByteCount size, checkPayload s.cfg size,
      checkRegisterBytes s.cfg reg size.toInt size]
  | .receive dst buf   => [checkRegister s.cfg dst, checkRegister s.cfg buf] ++
      checkPending s.cfg (recvCapacity s buf) buf s.netbuf

/-- What an instruction does to the state after its fetch when its checks pass. -/
def Instr.effect (s : State) : Instr → State
  | .load reg imm      => s.setReg reg.toNat imm
  | .store reg addr    => s.setWord addr.toNat (s.reg reg.toNat)
  | .add regA regB     =>
    s.setReg regA.toNat (wrap32 ((s.reg regA.toNat).toInt + (s.reg regB.toNat).toInt))
  | .sub regA regB     =>
    s.setReg regA.toNat (wrap32 ((s.reg regA.toNat).toInt - (s.reg regB.toNat).toInt))
  | .jmp addr _        => s.setPc addr
  | .halt _ _          => s.halt
  | .send reg size     => s.setNetbuf (.holding (s.regs.readBytes (4 * reg.toNat) size.toNat))
  | .receive dst buf   =>
    ((s.setRegBytes (4 * buf.toNat) s.netbuf.payload).setNetbuf .empty).setReg dst.toNat
      (payloadLength s.netbuf.payload)

end Sys2Proof

namespace Sys2Proof.Machine

variable {s t : State} {i : Instr} {k : Trap}

/-- Every meaning of the model is the effect behind the checks. -/
theorem exec_eq_guarded (i : Instr) (s : State) :
    exec i s = .next (s.guarded (i.checks s) fun s => i.effect s) := by
  cases i <;> rfl

/-- When its checks pass, an instruction answers its effect. -/
theorem exec_of_pass (h : ∀ k ∈ i.checks s, k = none) : exec i s = .next (i.effect s) := by
  rw [exec_eq_guarded, State.guarded_of_pass h]

/-- All that an instruction can answer: its effect when the checks pass, or the fault of one of them. -/
theorem exec_cases (h : exec i s = .next t) :
    ((∀ k ∈ i.checks s, k = none) ∧ t = i.effect s) ∨ ∃ k, some k ∈ i.checks s ∧ t = s.raise k := by
  rw [exec_eq_guarded, Host.Outcome.next.injEq] at h
  subst h
  rcases s.guarded_cases (i.checks s) (fun s => i.effect s) with
    ⟨hp, e⟩ | ⟨before, k, after, hc, -, e⟩
  · exact .inl ⟨hp, e⟩
  · exact .inr ⟨k, by simp [hc], e⟩

/-- The effect answers, and so no check failed, when the answer is not Faulted. -/
theorem exec_cases_of_not_faulted (h : exec i s = .next t) (ht : t.status ≠ .faulted) :
    (∀ k ∈ i.checks s, k = none) ∧ t = i.effect s := by
  rcases exec_cases h with h | ⟨k, -, rfl⟩
  · exact h
  · exact absurd rfl ht

/-- The checks look at nothing that the fetch changes. -/
@[simp] theorem checks_afterFetch (i : Instr) (s : State) : i.checks s.afterFetch = i.checks s := by
  cases i <;> rfl

/-! ### What an effect leaves unchanged -/

variable (i s)

@[simp] theorem effect_cfg : (i.effect s).cfg = s.cfg := by cases i <;> rfl

@[simp] theorem effect_started : (i.effect s).started = s.started := by cases i <;> rfl

@[simp] theorem effect_faultKind : (i.effect s).faultKind = s.faultKind := by cases i <;> rfl

@[simp] theorem effect_faultPc : (i.effect s).faultPc = s.faultPc := by cases i <;> rfl

@[simp] theorem effect_faultValue : (i.effect s).faultValue = s.faultValue := by cases i <;> rfl

@[simp] theorem effect_regs_length : (i.effect s).regs.length = s.regs.length := by
  cases i <;> simp [Instr.effect]

/-- Only HALT changes the run status (42_control.md R112). -/
theorem effect_status :
    (i.effect s).status = if i.mnemonic = .halt then .halted else s.status := by
  cases i <;> rfl

/-- Only JMP changes `pc` (42_control.md R110). -/
theorem effect_pc : (i.effect s).pc = if i.mnemonic = .jmp then i.operand1 else s.pc := by
  cases i <;> rfl

/-- An effect other than HALT's keeps the status. -/
theorem effect_status_of_ne_halt (h : i.mnemonic ≠ .halt) : (i.effect s).status = s.status := by
  rw [effect_status, if_neg h]

/-! ### The state after the fetch -/

@[simp] theorem State.afterFetch_cfg : s.afterFetch.cfg = s.cfg := rfl
@[simp] theorem State.afterFetch_regs : s.afterFetch.regs = s.regs := rfl
@[simp] theorem State.afterFetch_memory : s.afterFetch.memory = s.memory := rfl
@[simp] theorem State.afterFetch_pc : s.afterFetch.pc = s.pc + 3 := rfl
@[simp] theorem State.afterFetch_status : s.afterFetch.status = s.status := rfl
@[simp] theorem State.afterFetch_faultKind : s.afterFetch.faultKind = s.faultKind := rfl
@[simp] theorem State.afterFetch_faultPc : s.afterFetch.faultPc = s.faultPc := rfl
@[simp] theorem State.afterFetch_faultValue : s.afterFetch.faultValue = s.faultValue := rfl
@[simp] theorem State.afterFetch_started : s.afterFetch.started = true := rfl
@[simp] theorem State.afterFetch_netbuf : s.afterFetch.netbuf = s.netbuf := rfl
@[simp] theorem State.afterFetch_reg (r : Nat) : s.afterFetch.reg r = s.reg r := rfl
@[simp] theorem State.afterFetch_word (a : Nat) : s.afterFetch.word a = s.word a := rfl

variable {i s}

/-! ### What is fetched -/

/-- A state fetches at most one instruction. -/
theorem State.Fetches.unique {j : Instr} (hi : s.Fetches i) (hj : s.Fetches j) : i = j :=
  Except.ok.inj (hi.2.symm.trans hj.2)

/-- A fetched instruction is well formed (30_encoding.md R66). -/
theorem State.Fetches.wellFormed (h : s.Fetches i) : i.WellFormed s.cfg := by
  obtain ⟨m, hm, -, rfl⟩ := decode_eq_ok h.2
  simpa [Instr.WellFormed] using hm

/-- A window in bounds holds an instruction or an unknown opcode word (30_encoding.md R72). -/
theorem State.fetches_or_fetchesUnknown (hb : FetchInBounds s.cfg s.pc) :
    (∃ i, s.Fetches i) ∨ s.FetchesUnknown := by
  cases hd : decode s.cfg s.window.opcode s.window.operand1 s.window.operand2 with
  | ok i => exact .inl ⟨i, hb, hd⟩
  | error e => exact .inr ⟨hb, (decode_eq_error.1 hd).2⟩

/-- An unknown opcode word is no instruction. -/
theorem State.FetchesUnknown.not_fetches (hu : s.FetchesUnknown) : ¬ s.Fetches i := fun h => by
  have hd := decode_of_no_enabled_value hu.2 s.window.operand1 s.window.operand2
  exact nomatch hd.symm.trans h.2

/-! ### The step -/

/-- All that a step from `s` can answer. -/
inductive StepTo (s : State) : State → Prop
  /-- The window is out of bounds (30_encoding.md R64). -/
  | fetchFault (hb : ¬ FetchInBounds s.cfg s.pc) :
      StepTo s (s.start.raiseAt s.pc ⟨.fetchOutOfBounds, s.pc⟩)
  /-- The opcode word is the value of no enabled mnemonic (30_encoding.md R67). -/
  | unknownOpcode (hu : s.FetchesUnknown) :
      StepTo s (s.afterFetch.raise ⟨.unknownOpcode, s.window.opcode⟩)
  /-- A check of the fetched instruction fails (30_encoding.md R68, R69). -/
  | checkFault (i : Instr) (k : Trap) (hi : s.Fetches i) (hk : some k ∈ i.checks s) :
      StepTo s (s.afterFetch.raise k)
  /-- The fetched instruction passes its checks and has its effect. -/
  | effect (i : Instr) (hi : s.Fetches i) (hp : ∀ k ∈ i.checks s, k = none) :
      StepTo s (i.effect s.afterFetch)

/-- A step that answers a next state started from a running one, and did one of these things. -/
theorem step_stepTo (h : step s = .next t) : s.status = .running ∧ StepTo s t := by
  obtain ⟨hr, ⟨hb, rfl⟩ | ⟨hb, ⟨e, hd, rfl⟩ | ⟨i, hd, he⟩⟩⟩ := step_cases h
  · exact ⟨hr, .fetchFault hb⟩
  · exact ⟨hr, .unknownOpcode ⟨hb, (decode_eq_error.1 hd).2⟩⟩
  · refine ⟨hr, ?_⟩
    rcases exec_cases he with ⟨hp, rfl⟩ | ⟨k, hk, rfl⟩
    · exact .effect i ⟨hb, hd⟩ (checks_afterFetch i s ▸ hp)
    · exact .checkFault i k ⟨hb, hd⟩ (checks_afterFetch i s ▸ hk)

/-- A running state always has a next one (00_scope.md R12). -/
theorem exists_step_of_running (hr : s.status = .running) : ∃ t, step s = .next t := by
  by_cases hb : FetchInBounds s.cfg s.pc
  · rcases State.fetches_or_fetchesUnknown hb with ⟨i, hi⟩ | hu
    · exact ⟨_, (step_of_fetches hr hi).trans (exec_eq_guarded i _)⟩
    · exact ⟨_, step_of_fetchesUnknown hr hu⟩
  · exact ⟨_, step_of_not_fetchInBounds hr hb⟩

/-- From an ended state no step exists (60_exceptions.md R145). -/
theorem step_of_not_running (hr : s.status ≠ .running) : step s = .fault (.noStep s.status) := by
  cases hs : s.status with
  | running => exact absurd hs hr
  | halted => simp only [step, hs]
  | faulted => simp only [step, hs]

/-- A step keeps the configuration (00_scope.md R6). -/
theorem step_cfg (h : step s = .next t) : t.cfg = s.cfg := by
  cases (step_stepTo h).2 with
  | fetchFault | unknownOpcode | checkFault => rfl
  | effect i hi hp => exact effect_cfg _ i

/-- The first effect of every step (10_state.md R33). -/
theorem step_started (h : step s = .next t) : t.started = true := by
  cases (step_stepTo h).2 with
  | fetchFault | unknownOpcode | checkFault => rfl
  | effect i hi hp => exact effect_started _ i

/-- A step keeps the size of the register file (10_state.md R20). -/
theorem step_regs_length (h : step s = .next t) : t.regs.length = s.regs.length := by
  cases (step_stepTo h).2 with
  | fetchFault | unknownOpcode | checkFault => rfl
  | effect i hi hp => exact effect_regs_length _ i

/-! ### Runs -/

/-- Where no step leads on, the run stays (70_reset_and_hazards.md R170). -/
theorem State.runFor_of_not_running (hr : s.status ≠ .running) (n : Nat) : s.runFor n = s := by
  cases n with
  | zero => rfl
  | succ n => rw [State.runFor, step_of_not_running hr]

/-- What holds at the start of a run and is kept by every step holds of every state of the run. -/
theorem runFor_induction {P : State → Prop} (hs : P s) (hstep : ∀ u v, P u → step u = .next v → P v)
    (n : Nat) : P (s.runFor n) := by
  induction n generalizing s with
  | zero => exact hs
  | succ n ih =>
    by_cases hr : s.status = .running
    · obtain ⟨t, ht⟩ := exists_step_of_running hr
      rw [State.runFor_succ_of_step ht]
      exact ih (hstep s t hs ht)
    · rwa [State.runFor_of_not_running hr]

/-! ### The statements about the shape of a step -/

/-- Settles O5: one lemma for each of the three windows. -/
theorem stepIsFetchDecodeExecute : Obligations.StepIsFetchDecodeExecute := by
  intro s hr
  refine ⟨fun hb => ⟨_, step_of_not_fetchInBounds hr hb, ?fetchFault⟩,
    fun hu => ⟨_, step_of_fetchesUnknown hr hu, ?unknown⟩, fun i hi => step_of_fetches hr hi⟩
  case fetchFault => exact ⟨rfl, rfl, rfl, rfl, rfl, rfl, rfl, rfl, rfl, rfl⟩
  case unknown => exact State.faultedFrom_raise (s := s.afterFetch) rfl _

/-- Settles O6: the fetched instruction is well formed by its decoding. -/
theorem stepRunsTheDecodedInstruction : Obligations.StepRunsTheDecodedInstruction :=
  fun _ _ hr hi => ⟨hi.wellFormed, step_of_fetches hr hi, rfl, rfl, rfl, rfl, rfl, rfl, rfl, rfl, rfl,
    rfl⟩

/-- Settles O9: from a running state every window has an answer, and from an ended one there is none. -/
theorem stepExistsExactlyWhileRunning : Obligations.StepExistsExactlyWhileRunning := by
  intro s
  refine ⟨⟨fun ⟨t, h⟩ => (step_stepTo h).1, exists_step_of_running⟩, step_of_not_running,
    fun r h => ?_⟩
  by_cases hr : s.status = .running
  · obtain ⟨t, ht⟩ := exists_step_of_running hr
    exact nomatch ht.symm.trans h
  · exact nomatch (step_of_not_running hr).symm.trans h

end Sys2Proof.Machine
end

section
/-! PROOFS. What a step changes and why: the cause of each failed check, and the frame of each effect
(spec/60_exceptions.md R141, R144; 30_encoding.md R68 to R71). -/

namespace Sys2Proof

/-- The mnemonic of an instruction says which constructor made it. -/
theorem Instr.eq_instr_of_mnemonic {i : Instr} {m : Mnemonic} (h : i.mnemonic = m) :
    i = m.instr i.operand1 i.operand2 := by
  rw [← h, Instr.mnemonic_instr_operands]

end Sys2Proof

namespace Sys2Proof.Machine

variable {s t : State} {i : Instr} {k : Trap} {c : Config}

/-! ### The cause of a failed check -/

theorem checkRegister_eq_some {r : Word} (h : checkRegister c r = some k) :
    ¬ InRange c.numRegisters r ∧ k = ⟨.registerIndexOutOfBounds, r⟩ := by
  rcases checkRegister_cases c r with ⟨-, e⟩ | ⟨hr, e⟩
  · exact nomatch e.symm.trans h
  · exact ⟨hr, (Option.some.inj (e.symm.trans h)).symm⟩

theorem checkAddress_eq_some {a : Word} (h : checkAddress c a = some k) :
    ¬ InRange c.memorySize a ∧ k = ⟨.memoryAddressOutOfBounds, a⟩ := by
  rcases checkAddress_cases c a with ⟨-, e⟩ | ⟨ha, e⟩
  · exact nomatch e.symm.trans h
  · exact ⟨ha, (Option.some.inj (e.symm.trans h)).symm⟩

theorem checkByteCount_eq_some {n : Word} (h : checkByteCount n = some k) :
    n.toInt < 0 ∧ k = ⟨.registerBytesOutOfBounds, n⟩ := by
  unfold checkByteCount at h
  split at h
  · cases h
  · exact ⟨by omega, (Option.some.inj h).symm⟩

theorem checkPayload_eq_some {n : Word} (h : checkPayload c n = some k) :
    (c.netBufCap : Int) < n.toInt ∧ k = ⟨.netPayloadTooLarge, n⟩ := by
  unfold checkPayload at h
  split at h
  · cases h
  · exact ⟨by omega, (Option.some.inj h).symm⟩

theorem checkRegisterBytes_eq_some {r v : Word} {n : Int} (h : checkRegisterBytes c r n v = some k) :
    4 * (c.numRegisters : Int) < 4 * r.toInt + n ∧ k = ⟨.registerBytesOutOfBounds, v⟩ := by
  unfold checkRegisterBytes at h
  split at h
  · cases h
  · exact ⟨by omega, (Option.some.inj h).symm⟩

theorem checkCapacity_eq_some {cap : Int} {q : List Byte} (h : checkCapacity cap q = some k) :
    cap < q.length ∧ k = ⟨.netReceiveBufferTooSmall, payloadLength q⟩ := by
  unfold checkCapacity at h
  split at h
  · cases h
  · exact ⟨by omega, (Option.some.inj h).symm⟩

/-- A failed check of RECEIVE's held payload is of its capacity or of its byte range (43_network.md
R124). -/
theorem checkPending_eq_some {cap : Int} {r : Word} {b : NetBuffer}
    (h : some k ∈ checkPending c cap r b) :
    (cap < b.size ∧ k = ⟨.netReceiveBufferTooSmall, payloadLength b.payload⟩) ∨
    (4 * (c.numRegisters : Int) < 4 * r.toInt + b.size ∧
      k = ⟨.registerBytesOutOfBounds, payloadLength b.payload⟩) := by
  cases b with
  | empty => cases h
  | holding q =>
    simp only [checkPending, List.mem_cons, List.not_mem_nil, or_false] at h
    exact h.imp (fun h => checkCapacity_eq_some h.symm) (fun h => checkRegisterBytes_eq_some h.symm)

/-- The length of a payload as a word is its low 32 bits. -/
theorem payloadLength_eq (q : List Byte) : payloadLength q = BitVec.ofNat 32 q.length :=
  BitVec.ofInt_natCast 32 q.length

/-- The causes of the fault `k` that the checks of `i` raise, with its value (the table of
60_exceptions.md R141 but for its first two rows). -/
inductive CheckCause (s : State) : Instr → Trap → Prop
  | register (i : Instr) (r : Word) (hi : i.mnemonic ∉ [.jmp, .halt])
      (hop : r = i.operand1 ∨ r = i.operand2 ∧ i.mnemonic ∈ [.add, .sub, .receive])
      (hr : ¬ InRange s.cfg.numRegisters r) : CheckCause s i ⟨.registerIndexOutOfBounds, r⟩
  | address (reg addr : Word) (ha : ¬ InRange s.cfg.memorySize addr) :
      CheckCause s (.store reg addr) ⟨.memoryAddressOutOfBounds, addr⟩
  | sendBytes (reg size : Word)
      (h : size.toInt < 0 ∨ 4 * (s.cfg.numRegisters : Int) < 4 * reg.toInt + size.toInt) :
      CheckCause s (.send reg size) ⟨.registerBytesOutOfBounds, size⟩
  | payload (reg size : Word) (h : (s.cfg.netBufCap : Int) < size.toInt) :
      CheckCause s (.send reg size) ⟨.netPayloadTooLarge, size⟩
  | capacity (dst buf : Word) (h : recvCapacity s buf < s.netbuf.size) :
      CheckCause s (.receive dst buf) ⟨.netReceiveBufferTooSmall, BitVec.ofNat 32 s.netbuf.size⟩
  | receiveBytes (dst buf : Word)
      (h : 4 * (s.cfg.numRegisters : Int) < 4 * buf.toInt + s.netbuf.size) :
      CheckCause s (.receive dst buf) ⟨.registerBytesOutOfBounds, BitVec.ofNat 32 s.netbuf.size⟩

/-- A check that fails has its cause. -/
theorem checkCause_of_mem_checks (hk : some k ∈ i.checks s) : CheckCause s i k := by
  have reg1 {r : Word} (e : some k = checkRegister s.cfg r) (hi : i.mnemonic ∉ [.jmp, .halt])
      (hr : r = i.operand1) : CheckCause s i k := by
    obtain ⟨hn, rfl⟩ := checkRegister_eq_some e.symm
    exact .register i r hi (.inl hr) hn
  have reg2 {r : Word} (e : some k = checkRegister s.cfg r) (hi : i.mnemonic ∈ [.add, .sub, .receive])
      (hr : r = i.operand2) : CheckCause s i k := by
    obtain ⟨hn, rfl⟩ := checkRegister_eq_some e.symm
    exact .register i r (by cases i <;> simp_all [Instr.mnemonic]) (.inr ⟨hr, hi⟩) hn
  cases i with
  | load r _ =>
    obtain e := List.mem_singleton.1 hk
    exact reg1 e (by simp [Instr.mnemonic]) rfl
  | store r a =>
    simp only [Instr.checks, List.mem_cons, List.not_mem_nil, or_false] at hk
    rcases hk with e | e
    · exact reg1 e (by simp [Instr.mnemonic]) rfl
    · obtain ⟨ha, rfl⟩ := checkAddress_eq_some e.symm
      exact .address r a ha
  | add a b | sub a b =>
    simp only [Instr.checks, List.mem_cons, List.not_mem_nil, or_false] at hk
    rcases hk with e | e
    · exact reg1 e (by simp [Instr.mnemonic]) rfl
    · exact reg2 e (by simp [Instr.mnemonic]) rfl
  | jmp | halt => cases hk
  | send r n =>
    simp only [Instr.checks, List.mem_cons, List.not_mem_nil, or_false] at hk
    rcases hk with e | e | e | e
    · exact reg1 e (by simp [Instr.mnemonic]) rfl
    · obtain ⟨h, rfl⟩ := checkByteCount_eq_some e.symm
      exact .sendBytes r n (.inl h)
    · obtain ⟨h, rfl⟩ := checkPayload_eq_some e.symm
      exact .payload r n h
    · obtain ⟨h, rfl⟩ := checkRegisterBytes_eq_some e.symm
      exact .sendBytes r n (.inr h)
  | receive d b =>
    simp only [Instr.checks, List.mem_append, List.mem_cons, List.not_mem_nil, or_false] at hk
    rcases hk with (e | e) | e
    · exact reg1 e (by simp [Instr.mnemonic]) rfl
    · exact reg2 e (by simp [Instr.mnemonic]) rfl
    · rcases checkPending_eq_some e with ⟨h, rfl⟩ | ⟨h, rfl⟩
      · rw [payloadLength_eq]; exact .capacity d b h
      · rw [payloadLength_eq]; exact .receiveBytes d b h

/-- No check raises the kind of the fetch or the kind that stands for no fault. -/
theorem CheckCause.kind_ne (h : CheckCause s i k) : k.kind ≠ .none ∧ k.kind ≠ .fetchOutOfBounds := by
  cases h <;> exact ⟨nofun, nofun⟩

/-! ### The frame of an effect, by mnemonic -/

/-- No effect faults. -/
theorem effect_status_ne_faulted (hr : s.status = .running) : (i.effect s).status ≠ .faulted := by
  rw [effect_status, hr]
  split <;> nofun

/-- Only STORE has an effect on memory (20_memory.md R43). -/
theorem effect_memory_of_ne_store (h : i.mnemonic ≠ .store) : (i.effect s).memory = s.memory := by
  cases i with
  | store => exact absurd rfl h
  | load | add | sub | jmp | halt | send | receive => rfl

/-- No base instruction has an effect on the Network Buffer (60_exceptions.md section 3). -/
theorem effect_netbuf_of_base (h : i.mnemonic ∈ enabled false) : (i.effect s).netbuf = s.netbuf := by
  cases i with
  | send | receive => exact absurd h (by simp [Instr.mnemonic, enabled])
  | load | store | add | sub | jmp | halt => rfl

/-- The instructions that are not base instructions. -/
theorem eq_send_or_receive (h : i.mnemonic ∉ enabled false) :
    (∃ reg size, i = .send reg size) ∨ ∃ dst buf, i = .receive dst buf := by
  cases i with
  | send reg size => exact .inl ⟨reg, size, rfl⟩
  | receive dst buf => exact .inr ⟨dst, buf, rfl⟩
  | load | store | add | sub | jmp | halt => exact absurd (by simp [Instr.mnemonic, enabled]) h

/-! ### When the checks of the network instructions pass -/

/-- SEND's four checks pass under these conditions and no others (43_network.md R121). -/
theorem send_checks_pass_iff {reg size : Word} : (∀ k ∈ Instr.checks s (.send reg size), k = none) ↔
    InRange s.cfg.numRegisters reg ∧ 0 ≤ size.toInt ∧ size.toInt ≤ s.cfg.netBufCap ∧
      4 * reg.toInt + size.toInt ≤ 4 * (s.cfg.numRegisters : Int) := by
  simp only [Instr.checks, List.forall_mem_cons, List.not_mem_nil, false_imp_iff, implies_true,
    and_true, checkRegister_eq_none, checkByteCount_eq_none, checkPayload_eq_none,
    checkRegisterBytes_eq_none]

/-- RECEIVE's checks pass under these conditions and no others (43_network.md R124). -/
theorem receive_checks_pass_iff {dst buf : Word} :
    (∀ k ∈ Instr.checks s (.receive dst buf), k = none) ↔
    InRange s.cfg.numRegisters dst ∧ InRange s.cfg.numRegisters buf ∧
      ∀ q, s.netbuf = .holding q → (q.length : Int) ≤ recvCapacity s buf ∧
        4 * buf.toInt + q.length ≤ 4 * (s.cfg.numRegisters : Int) := by
  simp only [Instr.checks, List.cons_append, List.nil_append, List.forall_mem_cons,
    checkRegister_eq_none, checkPending_pass]

/-- A payload that passed RECEIVE's checks lies inside the byte view of the registers. -/
theorem payload_within_of_pass {dst buf : Word}
    (hp : ∀ k ∈ Instr.checks s (.receive dst buf), k = none) :
    4 * buf.toNat + s.netbuf.size ≤ 4 * s.cfg.numRegisters := by
  obtain ⟨-, hbuf, hq⟩ := receive_checks_pass_iff.1 hp
  have hlt := hbuf.toNat_lt
  have hint := toInt_eq_toNat_of_nonneg hbuf.1
  cases hb : s.netbuf with
  | empty => simp only [NetBuffer.size, NetBuffer.payload, List.length_nil]; omega
  | holding q =>
    have := (hq q hb).2
    simp only [NetBuffer.size, NetBuffer.payload]; omega

/-- A register that is not regDst and that no payload byte reaches keeps its value over RECEIVE. -/
theorem effect_receive_reg_other {dst buf : Word} {r : Nat} (hs : s.RegsSized)
    (hp : ∀ k ∈ Instr.checks s (.receive dst buf), k = none) (hd : r ≠ dst.toNat)
    (hr : 4 * r + 3 < 4 * buf.toNat ∨ 4 * buf.toNat + s.netbuf.size ≤ 4 * r) :
    (Instr.effect s (.receive dst buf)).reg r = s.reg r := by
  have hin := payload_within_of_pass hp
  rw [Instr.effect, State.setReg_reg_other _ hd]
  exact RegFile.read_writeBytes_outside s.regs (by rw [hs]; exact hin) hr

/-- A register that an effect changes is one that the instruction writes (10_state.md section 1). -/
theorem effect_reg_changed {r : Nat} (hs : s.RegsSized) (hp : ∀ k ∈ i.checks s, k = none)
    (h : (i.effect s).reg r ≠ s.reg r) :
    (∃ a b, a.toNat = r ∧ (i = .load a b ∨ i = .add a b ∨ i = .sub a b)) ∨
    (∃ dst buf, i = .receive dst buf ∧
      (r = dst.toNat ∨ (buf.toNat ≤ r ∧ 4 * r < 4 * buf.toNat + s.netbuf.size))) := by
  have written {j : Nat} {v : Word} (h : (s.setReg j v).reg r ≠ s.reg r) : j = r :=
    Classical.byContradiction fun hj => h (State.setReg_reg_other s (Ne.symm hj) v)
  cases i with
  | load a b => exact .inl ⟨a, b, written h, .inl rfl⟩
  | add a b => exact .inl ⟨a, b, written h, .inr (.inl rfl)⟩
  | sub a b => exact .inl ⟨a, b, written h, .inr (.inr rfl)⟩
  | store | jmp | halt | send => exact absurd rfl h
  | receive dst buf =>
    refine .inr ⟨dst, buf, rfl, Classical.byContradiction fun hn => h ?_⟩
    obtain ⟨hd, hr⟩ := not_or.1 hn
    exact effect_receive_reg_other hs hp hd (by omega)

/-! ### The statements -/

/-- Settles O19: a step that halts is the effect of an instruction, and only HALT's effect halts. -/
theorem haltsExactlyOnFetchedHalt : Obligations.HaltsExactlyOnFetchedHalt := by
  intro s t h
  obtain ⟨hr, hst⟩ := step_stepTo h
  constructor
  · intro ht
    cases hst with
    | fetchFault | unknownOpcode | checkFault => cases ht
    | effect i hi hp =>
      have hm : i.mnemonic = .halt := by
        by_contra hm
        rw [effect_status_of_ne_halt _ _ hm, State.afterFetch_status, hr] at ht
        cases ht
      exact ⟨i.operand1, i.operand2, Instr.eq_instr_of_mnemonic hm ▸ hi⟩
  · rintro ⟨u, v, hi⟩
    cases (step_of_fetches_halt hr hi).symm.trans h
    rfl

/-- Settles O32: every fault is raised on the state before the step or on the state after the fetch,
with nothing else changed. -/
theorem faultsArePrecise : Obligations.FaultsArePrecise := by
  intro s t h ht
  obtain ⟨hr, hst⟩ := step_stepTo h
  cases hst with
  | fetchFault hb =>
    exact ⟨rfl, rfl, rfl, rfl, rfl, rfl, nofun, fun _ => ⟨rfl, rfl⟩, fun h => absurd rfl h⟩
  | unknownOpcode hu =>
    exact ⟨rfl, rfl, rfl, rfl, rfl, State.afterFetch_raise_faultPc _, nofun, nofun, fun _ => rfl⟩
  | checkFault i k hi hk =>
    obtain ⟨hnone, hfetch⟩ := (checkCause_of_mem_checks hk).kind_ne
    exact ⟨rfl, rfl, rfl, rfl, rfl, State.afterFetch_raise_faultPc _, hnone, fun h => absurd h hfetch,
      fun _ => rfl⟩
  | effect i hi hp => exact absurd ht (effect_status_ne_faulted hr)

/-- Settles O33: an effect keeps the fault record, and any other answer is Faulted. -/
theorem faultRecordIsWrittenOnlyByFaults : Obligations.FaultRecordIsWrittenOnlyByFaults := by
  intro s t h ht
  cases (step_stepTo h).2 with
  | fetchFault | unknownOpcode | checkFault => exact absurd rfl ht
  | effect i hi hp => simp

/-- Settles O34: the fetch fault and the unknown opcode carry their cause, and so does a failed
check. -/
theorem eachFaultHasItsCause : Obligations.EachFaultHasItsCause := by
  intro s t h ht
  obtain ⟨hr, hst⟩ := step_stepTo h
  cases hst with
  | fetchFault hb => exact ⟨hb, rfl⟩
  | unknownOpcode hu => exact ⟨hu, rfl⟩
  | effect i hi hp => exact absurd ht (effect_status_ne_faulted hr)
  | checkFault i k hi hk =>
    cases checkCause_of_mem_checks hk with
    | register _ r hm hop hr => exact ⟨i, hi, hm, hr, hop⟩
    | address reg addr ha => exact ⟨reg, hi, ha⟩
    | sendBytes reg size hc => exact .inl ⟨reg, hi, hc⟩
    | payload reg size hc => exact ⟨reg, hi, hc⟩
    | capacity dst buf hc => exact ⟨dst, buf, hi, rfl, hc⟩
    | receiveBytes dst buf hc => exact .inr ⟨dst, buf, hi, rfl, hc⟩

/-- Settles O35: the effect of an instruction other than STORE keeps memory, and STORE's changes one
word. -/
theorem onlyStoreChangesMemory : Obligations.OnlyStoreChangesMemory := by
  intro s t a hm h ha
  cases (step_stepTo h).2 with
  | fetchFault | unknownOpcode | checkFault => exact absurd rfl ha
  | effect i hi hp =>
    have hstore : i.mnemonic = .store := by
      by_contra hne
      exact ha (congrArg (Memory.readWord · a) (effect_memory_of_ne_store hne))
    obtain ⟨reg, addr, rfl⟩ : ∃ reg addr, i = .store reg addr :=
      ⟨_, _, Instr.eq_instr_of_mnemonic hstore⟩
    have haddr : InRange s.cfg.memorySize addr :=
      checkAddress_eq_none.1 (hp _ (by simp [Instr.checks]))
    obtain rfl : a = addr.toNat := by
      by_contra hne
      exact ha (State.setWord_word_other s.afterFetch hne _)
    exact ⟨reg, addr, hi, haddr, rfl, State.setWord_word_same (s := s.afterFetch) hm.1 _ _⟩

/-- Settles O36: `effect_pc` for an effect; a fault keeps `pc` where the fetch left it. -/
theorem onlyFetchAndJmpMovePc : Obligations.OnlyFetchAndJmpMovePc := by
  intro s t h
  cases (step_stepTo h).2 with
  | fetchFault hb => exact .inl ⟨hb, rfl⟩
  | unknownOpcode hu => exact .inr (.inl ⟨hu.1, fun _ _ => hu.not_fetches, rfl⟩)
  | checkFault i k hi hk =>
    refine .inr (.inl ⟨hi.1, fun a b hj => ?_, rfl⟩)
    obtain rfl := hi.unique hj
    cases hk
  | effect i hi hp =>
    rw [effect_pc]
    split
    next hm => exact .inr (.inr ⟨i.operand2, Instr.eq_instr_of_mnemonic hm ▸ hi⟩)
    next hm =>
      refine .inr (.inl ⟨hi.1, fun a b hj => hm ?_, rfl⟩)
      rw [hi.unique hj, Instr.mnemonic]

/-- Settles O37: a fault changes no register, and `effect_reg_changed` says which an effect changes. -/
theorem registersChangeOnlyByTheirWriters : Obligations.RegistersChangeOnlyByTheirWriters := by
  intro s t r hs h hr
  cases (step_stepTo h).2 with
  | fetchFault | unknownOpcode | checkFault => exact absurd rfl hr
  | effect i hi hp =>
    rcases effect_reg_changed (s := s.afterFetch) hs (checks_afterFetch i s ▸ hp) hr with
      ⟨a, b, ha, hi'⟩ | ⟨dst, buf, rfl, hw⟩
    · refine .inl ⟨a, b, ha, ?_⟩
      rcases hi' with rfl | rfl | rfl
      · exact .inl hi
      · exact .inr (.inl hi)
      · exact .inr (.inr hi)
    · exact .inr ⟨dst, buf, hi, hw⟩

/-- A step changes the Network Buffer only as the effect of SEND or RECEIVE. -/
theorem step_netbuf_changed (h : step s = .next t) (hb : t.netbuf ≠ s.netbuf) :
    ∃ i, s.Fetches i ∧ i.mnemonic ∉ enabled false ∧ t = i.effect s.afterFetch := by
  cases (step_stepTo h).2 with
  | fetchFault | unknownOpcode | checkFault => exact absurd rfl hb
  | effect i hi hp => exact ⟨i, hi, fun hm => hb (effect_netbuf_of_base hm), rfl⟩

/-- Settles O38: the effects of the two network instructions, which are fetched only with the
extension. -/
theorem onlyNetworkInstructionsTouchTheBuffer : Obligations.OnlyNetworkInstructionsTouchTheBuffer := by
  constructor
  · intro s t h hb
    obtain ⟨i, hi, hm, rfl⟩ := step_netbuf_changed h hb
    rcases eq_send_or_receive hm with ⟨reg, size, rfl⟩ | ⟨dst, buf, rfl⟩
    · exact .inl ⟨reg, size, hi, rfl⟩
    · exact .inr ⟨dst, buf, hi, rfl⟩
  · intro s t hext h
    by_contra hb
    obtain ⟨i, hi, hm, -⟩ := step_netbuf_changed h hb
    exact hm (hext ▸ hi.wellFormed)

end Sys2Proof.Machine
end

section
/-! PROOFS. SEND and RECEIVE (spec/43_network.md): the answer of each under its checks, the interface's
contract, and the round trip over a run (spec/60_exceptions.md section 3). -/

namespace Sys2Proof.Machine

variable {s t u : State} {reg size dst buf : Word} {c : Config}

/-! ### Bytes of registers -/

/-- Byte `k` of register `r` stands at index `4 * r + k` of the byte view (43_network.md R120). -/
theorem RegFile.byteOf_read (f : RegFile) (r : Nat) {k : Nat} (hk : k < 4) :
    byteOf (f.read r) k = f.readByte (4 * r + k) := by
  rw [RegFile.readByte, show (4 * r + k) / 4 = r by omega, show (4 * r + k) % 4 = k by omega]

/-- A byte of the byte view after a range of it was written. -/
theorem RegFile.readByte_writeBytes (f : RegFile) {j : Nat} {q : List Byte}
    (hq : j + q.length ≤ 4 * f.length) (k : Nat) :
    (f.writeBytes j q).readByte k =
      if j ≤ k ∧ k < j + q.length then q.getD (k - j) 0 else f.readByte k := by
  split
  next h =>
    have hi : k - j < q.length := by omega
    have hread := RegFile.readByte_writeBytes_inside f hq hi
    rwa [show j + (k - j) = k by omega, List.getElem_eq_getD 0] at hread
  next h => exact RegFile.readByte_writeBytes_outside f hq (by omega)

/-! ### SEND -/

/-- A negative size is the word of its fault (43_network.md R121 check 2). -/
theorem checkByteCount_of_neg (h : size.toInt < 0) :
    checkByteCount size = some ⟨.registerBytesOutOfBounds, size⟩ := if_neg (by omega)

/-- A size above the capacity is the word of its fault (43_network.md R121 check 3). -/
theorem checkPayload_of_gt (h : (c.netBufCap : Int) < size.toInt) :
    checkPayload c size = some ⟨.netPayloadTooLarge, size⟩ := if_neg (by omega)

/-- A byte range that passes the end of the byte view raises its fault (43_network.md R121, R124). -/
theorem checkRegisterBytes_of_gt {r v : Word} {n : Int}
    (h : 4 * (c.numRegisters : Int) < 4 * r.toInt + n) :
    checkRegisterBytes c r n v = some ⟨.registerBytesOutOfBounds, v⟩ := if_neg (by omega)

/-- SEND with an invalid index raises its fault (43_network.md R121 check 1). -/
theorem exec_send_of_not_inRange (hr : ¬ InRange s.cfg.numRegisters reg) :
    exec (.send reg size) s = .next (s.raise ⟨.registerIndexOutOfBounds, reg⟩) := by
  simp only [exec, execSend, checkRegister_of_not_inRange hr, State.guarded_some]

/-- SEND of a negative size raises its fault (43_network.md R121 check 2). -/
theorem exec_send_of_neg (hr : InRange s.cfg.numRegisters reg) (h0 : size.toInt < 0) :
    exec (.send reg size) s = .next (s.raise ⟨.registerBytesOutOfBounds, size⟩) := by
  simp only [exec, execSend, checkRegister_eq_none.2 hr, checkByteCount_of_neg h0, State.guarded_none,
    State.guarded_some]

/-- SEND of a size above the capacity raises its fault (43_network.md R121 check 3). -/
theorem exec_send_of_too_large (hr : InRange s.cfg.numRegisters reg) (h0 : 0 ≤ size.toInt)
    (hcap : (s.cfg.netBufCap : Int) < size.toInt) :
    exec (.send reg size) s = .next (s.raise ⟨.netPayloadTooLarge, size⟩) := by
  simp only [exec, execSend, checkRegister_eq_none.2 hr, checkByteCount_eq_none.2 h0,
    checkPayload_of_gt hcap, State.guarded_none, State.guarded_some]

/-- SEND of bytes past the end of the byte view raises its fault (43_network.md R121 check 4). -/
theorem exec_send_of_bytes_out (hr : InRange s.cfg.numRegisters reg) (h0 : 0 ≤ size.toInt)
    (hcap : size.toInt ≤ s.cfg.netBufCap)
    (hb : 4 * (s.cfg.numRegisters : Int) < 4 * reg.toInt + size.toInt) :
    exec (.send reg size) s = .next (s.raise ⟨.registerBytesOutOfBounds, size⟩) := by
  simp only [exec, execSend, checkRegister_eq_none.2 hr, checkByteCount_eq_none.2 h0,
    checkPayload_eq_none.2 hcap, checkRegisterBytes_of_gt hb, State.guarded_none, State.guarded_some]

/-- SEND under its four checks holds the register bytes it names (43_network.md R122). -/
theorem exec_send_of_pass (hr : InRange s.cfg.numRegisters reg) (h0 : 0 ≤ size.toInt)
    (hcap : size.toInt ≤ s.cfg.netBufCap)
    (hb : 4 * reg.toInt + size.toInt ≤ 4 * (s.cfg.numRegisters : Int)) :
    exec (.send reg size) s =
      .next (s.setNetbuf (.holding (s.regs.readBytes (4 * reg.toNat) size.toNat))) :=
  exec_of_pass (send_checks_pass_iff.2 ⟨hr, h0, hcap, hb⟩)

/-! ### RECEIVE -/

/-- RECEIVE with an invalid regDst raises its fault (43_network.md R124 check 1). -/
theorem exec_receive_of_dst_not_inRange (hd : ¬ InRange s.cfg.numRegisters dst) :
    exec (.receive dst buf) s = .next (s.raise ⟨.registerIndexOutOfBounds, dst⟩) := by
  simp only [exec, execReceive, checkRegister_of_not_inRange hd, List.cons_append, State.guarded_some]

/-- RECEIVE with an invalid regBuf raises its fault (43_network.md R124 check 2). -/
theorem exec_receive_of_buf_not_inRange (hd : InRange s.cfg.numRegisters dst)
    (hb : ¬ InRange s.cfg.numRegisters buf) :
    exec (.receive dst buf) s = .next (s.raise ⟨.registerIndexOutOfBounds, buf⟩) := by
  simp only [exec, execReceive, checkRegister_eq_none.2 hd, checkRegister_of_not_inRange hb,
    List.cons_append, State.guarded_none, State.guarded_some]

/-- RECEIVE of a payload above the capacity raises its fault (43_network.md R124 check 3). -/
theorem exec_receive_of_too_small {q : List Byte} (hd : InRange s.cfg.numRegisters dst)
    (hb : InRange s.cfg.numRegisters buf) (hq : s.netbuf = .holding q)
    (hcap : recvCapacity s buf < q.length) :
    exec (.receive dst buf) s =
      .next (s.raise ⟨.netReceiveBufferTooSmall, BitVec.ofNat 32 q.length⟩) := by
  have hcheck : checkCapacity (recvCapacity s buf) q =
      some ⟨.netReceiveBufferTooSmall, payloadLength q⟩ := if_neg (by omega)
  simp only [exec, execReceive, checkRegister_eq_none.2 hd, checkRegister_eq_none.2 hb, hq,
    checkPending, hcheck, List.cons_append, List.nil_append, State.guarded_none, State.guarded_some,
    payloadLength_eq]

/-- RECEIVE of a payload past the end of the byte view raises its fault (43_network.md R124 check 4). -/
theorem exec_receive_of_bytes_out {q : List Byte} (hd : InRange s.cfg.numRegisters dst)
    (hb : InRange s.cfg.numRegisters buf) (hq : s.netbuf = .holding q)
    (hcap : (q.length : Int) ≤ recvCapacity s buf)
    (hout : 4 * (s.cfg.numRegisters : Int) < 4 * buf.toInt + q.length) :
    exec (.receive dst buf) s =
      .next (s.raise ⟨.registerBytesOutOfBounds, BitVec.ofNat 32 q.length⟩) := by
  simp only [exec, execReceive, checkRegister_eq_none.2 hd, checkRegister_eq_none.2 hb, hq,
    checkPending, checkCapacity_eq_none.2 hcap, checkRegisterBytes_of_gt hout, List.cons_append,
    List.nil_append, State.guarded_none, State.guarded_some, payloadLength_eq]

/-- RECEIVE leaves the count of the payload's bytes in regDst (43_network.md R125). -/
theorem effect_receive_reg_dst (hs : s.RegsSized) (hd : InRange s.cfg.numRegisters dst) :
    (Instr.effect s (.receive dst buf)).reg dst.toNat = BitVec.ofNat 32 s.netbuf.size := by
  have hlt : dst.toNat < (s.regs.writeBytes (4 * buf.toNat) s.netbuf.payload).length := by
    rw [RegFile.writeBytes_length, hs]; exact hd.toNat_lt
  exact (RegFile.read_write_same _ hlt _).trans (payloadLength_eq _)

/-- RECEIVE leaves in every byte of the other registers the payload's byte where its range covers
it, and the old byte elsewhere (43_network.md R125). -/
theorem effect_receive_byte {r k : Nat} (hs : s.RegsSized)
    (hp : ∀ k ∈ Instr.checks s (.receive dst buf), k = none) (hr : r ≠ dst.toNat) (hk : k < 4) :
    byteOf ((Instr.effect s (.receive dst buf)).reg r) k =
      if 4 * buf.toNat ≤ 4 * r + k ∧ 4 * r + k < 4 * buf.toNat + s.netbuf.payload.length
      then s.netbuf.payload.getD (4 * r + k - 4 * buf.toNat) 0 else byteOf (s.reg r) k := by
  have hin : 4 * buf.toNat + s.netbuf.payload.length ≤ 4 * s.regs.length := by
    rw [hs]; exact payload_within_of_pass hp
  rw [Instr.effect, State.setReg_reg_other _ hr]
  calc byteOf ((s.regs.writeBytes (4 * buf.toNat) s.netbuf.payload).read r) k
      = (s.regs.writeBytes (4 * buf.toNat) s.netbuf.payload).readByte (4 * r + k) :=
        RegFile.byteOf_read _ r hk
    _ = _ := by rw [RegFile.readByte_writeBytes _ hin, ← RegFile.byteOf_read _ r hk]; rfl

/-! ### The statements about one instruction -/

/-- Settles O21: the buffer holds the bytes that `readBytes` reads, which are those of the byte view. -/
theorem sendHoldsRegisterBytes : Obligations.SendHoldsRegisterBytes := by
  refine ⟨fun c reg size hc hext => ?decodes, fun s reg size hr h0 hcap hb => ?sends⟩
  case decodes => exact decode_value (m := .send) hc (hext ▸ mem_enabled_true _) reg size
  case sends =>
    exact ⟨_, _, exec_send_of_pass hr h0 hcap hb, rfl, RegFile.readBytes_length _ _ _,
      fun k hk => RegFile.readBytes_getElem _ _ _ hk, rfl, fun _ _ => rfl, rfl, rfl, rfl, rfl, rfl, rfl,
      rfl⟩

/-- Settles O22: the raise of the first failing check, with its frame. -/
theorem sendFaultsInOrder : Obligations.SendFaultsInOrder := fun _ _ _ _ hpc =>
  ⟨fun hr => ⟨_, exec_send_of_not_inRange hr, State.faultedFrom_raise hpc _⟩,
    fun hr h0 => ⟨_, exec_send_of_neg hr h0, State.faultedFrom_raise hpc _⟩,
    fun hr h0 hcap => ⟨_, exec_send_of_too_large hr h0 hcap, State.faultedFrom_raise hpc _⟩,
    fun hr h0 hcap hb => ⟨_, exec_send_of_bytes_out hr h0 hcap hb, State.faultedFrom_raise hpc _⟩⟩

/-- Settles O23: RECEIVE's effect, byte by byte. -/
theorem receiveTakesPayloadIntoRegisters : Obligations.ReceiveTakesPayloadIntoRegisters := by
  refine ⟨fun c dst buf hc hext => ?decodes, fun s dst buf q hs hq hd hb hfits => ?receives⟩
  case decodes => exact decode_value (m := .receive) hc (hext ▸ mem_enabled_true _) dst buf
  case receives =>
    subst hq
    have hp : ∀ k ∈ Instr.checks s (.receive dst buf), k = none := by
      refine receive_checks_pass_iff.2 ⟨hd, hb, fun q hq => ?_⟩
      have hpay : s.netbuf.payload = q := by rw [hq, NetBuffer.payload]
      rw [hpay] at hfits
      exact hfits hq
    exact ⟨_, exec_of_pass hp, rfl, effect_receive_reg_dst hs hd,
      fun r k hr hk => effect_receive_byte hs hp hr hk, effect_regs_length _ _, fun _ _ => rfl, rfl,
      rfl, rfl, rfl, rfl, rfl, rfl⟩

/-- Settles O24: the raise of the first failing check, with its frame. -/
theorem receiveFaultsInOrder : Obligations.ReceiveFaultsInOrder := by
  intro s dst buf p hpc
  refine ⟨fun hd => ⟨_, exec_receive_of_dst_not_inRange hd, State.faultedFrom_raise hpc _⟩,
    fun hd hb => ⟨_, exec_receive_of_buf_not_inRange hd hb, State.faultedFrom_raise hpc _⟩,
    fun q cap hq hcap hd hb => ?_⟩
  obtain rfl : cap = recvCapacity s buf := hcap
  exact ⟨fun hsmall => ⟨_, exec_receive_of_too_small hd hb hq hsmall, State.faultedFrom_raise hpc _⟩,
    fun hfits hout =>
      ⟨_, exec_receive_of_bytes_out hd hb hq hfits hout, State.faultedFrom_raise hpc _⟩⟩

/-! ### The interface's contract -/

/-- `send` fails exactly on more bytes than the capacity (60_exceptions.md R153). -/
theorem netSend_readBytes (cap : Nat) (f : RegFile) (j n : Nat) (b : NetBuffer) :
    netSend cap (f.readBytes j n) b = if n > cap then none else some (.holding (f.readBytes j n)) := by
  rw [netSend, RegFile.readBytes_length]

/-- Settles O25: `send` fails exactly where the third check of SEND does, and `receive` exactly
where the third check of RECEIVE does. -/
theorem networkInstructionsRefineTheInterface : Obligations.NetworkInstructionsRefineTheInterface := by
  refine ⟨fun s reg size hr h0 hb => ?send, fun s dst buf hs hd hb hin => ?receive⟩
  case send =>
    have hnat := toInt_eq_toNat_of_nonneg h0
    rw [netSend_readBytes]
    by_cases hcap : size.toInt ≤ s.cfg.netBufCap
    · rw [if_neg (by omega)]
      exact ⟨_, exec_send_of_pass hr h0 hcap hb, rfl, rfl⟩
    · rw [if_pos (by omega)]
      exact ⟨_, exec_send_of_too_large hr h0 (by omega), rfl, rfl, rfl⟩
  case receive =>
    have hpass (hq : ∀ q, s.netbuf = .holding q → (q.length : Int) ≤ recvCapacity s buf) :
        ∀ k ∈ Instr.checks s (.receive dst buf), k = none := by
      refine receive_checks_pass_iff.2 ⟨hd, hb, fun q h => ⟨hq q h, ?_⟩⟩
      rwa [h] at hin
    cases hbuf : s.netbuf with
    | empty =>
      have hcount := effect_receive_reg_dst (buf := buf) hs hd
      rw [hbuf] at hcount
      exact ⟨_, exec_of_pass (hpass fun q h => nomatch hbuf.symm.trans h), rfl, rfl, hcount⟩
    | holding q =>
      rw [netReceive]
      by_cases hcap : (q.length : Int) ≤ recvCapacity s buf
      · have hcount := effect_receive_reg_dst (buf := buf) hs hd
        rw [hbuf] at hcount
        rw [if_neg (by omega)]
        refine ⟨_, exec_of_pass (hpass fun q' h => ?_), rfl, rfl, hcount⟩
        cases hbuf.symm.trans h
        exact hcap
      · rw [if_pos (by omega)]
        exact ⟨_, exec_receive_of_too_small hd hb hbuf (by omega), hbuf, rfl, rfl⟩

/-- Settles O27: SEND reads the buffer neither in its checks nor in its effect, and RECEIVE leaves an
empty buffer, from which a second one takes no byte. -/
theorem bufferIsOneSlotDeliveredAtMostOnce : Obligations.BufferIsOneSlotDeliveredAtMostOnce := by
  refine ⟨fun s t b reg size h ht => ?lastWins, fun s t dst buf dst' buf' hs h ht hd hb => ?once⟩
  case lastWins =>
    obtain ⟨hp, rfl⟩ := exec_cases_of_not_faulted h ht
    exact exec_of_pass (s := s.setNetbuf b) (i := .send reg size) hp
  case once =>
    obtain ⟨-, rfl⟩ := exec_cases_of_not_faulted h ht
    generalize ht' : Instr.effect s (.receive dst buf) = t
    have hcfg : t.cfg = s.cfg := ht' ▸ effect_cfg s _
    have hsized : t.RegsSized := by
      rw [State.RegsSized, hcfg, ← hs, ← ht', effect_regs_length]
    have hempty : t.netbuf = .empty := ht' ▸ rfl
    have hsize : t.netbuf.size = 0 := by rw [hempty]; rfl
    rw [← hcfg] at hd hb
    have hp : ∀ k ∈ Instr.checks t (.receive dst' buf'), k = none :=
      receive_checks_pass_iff.2 ⟨hd, hb, fun q h => nomatch hempty.symm.trans h⟩
    refine ⟨_, exec_of_pass hp, ?count, rfl, effect_regs_length _ _, fun r hr => ?others⟩
    case count => exact (effect_receive_reg_dst hsized hd).trans (congrArg (BitVec.ofNat 32) hsize)
    case others => exact effect_receive_reg_other hsized hp hr (by omega)

/-! ### The round trip -/

/-- A step that fetches no network instruction keeps the buffer (60_exceptions.md section 3). -/
theorem step_netbuf_of_not_fetchesNetwork (hn : ¬ s.FetchesNetwork) (h : step s = .next t) :
    t.netbuf = s.netbuf := by
  by_contra hb
  obtain ⟨i, hi, hm, -⟩ := step_netbuf_changed h hb
  rcases eq_send_or_receive hm with ⟨a, b, rfl⟩ | ⟨a, b, rfl⟩
  · exact hn ⟨a, b, .inl hi⟩
  · exact hn ⟨a, b, .inr hi⟩

/-- A run without network instructions keeps the configuration and the buffer. -/
theorem runFor_keeps_netbuf {n : Nat} (hn : ∀ k < n, ¬ (s.runFor k).FetchesNetwork) :
    (s.runFor n).cfg = s.cfg ∧ (s.runFor n).netbuf = s.netbuf := by
  induction n generalizing s with
  | zero => exact ⟨rfl, rfl⟩
  | succ n ih =>
    by_cases hr : s.status = .running
    · obtain ⟨t, ht⟩ := exists_step_of_running hr
      have htail : ∀ k < n, ¬ (t.runFor k).FetchesNetwork := fun k hk => by
        rw [← State.runFor_succ_of_step ht]; exact hn (k + 1) (by omega)
      obtain ⟨hcfg, hbuf⟩ := ih htail
      rw [State.runFor_succ_of_step ht]
      exact ⟨hcfg.trans (step_cfg ht),
        hbuf.trans (step_netbuf_of_not_fetchesNetwork (hn 0 (by omega)) ht)⟩
    · rw [State.runFor_of_not_running hr]
      exact ⟨rfl, rfl⟩

/-- Settles O26: the run keeps what SEND put into the buffer, so RECEIVE's bytes are SEND's. -/
theorem sendThenReceiveRoundTrip : Obligations.SendThenReceiveRoundTrip := by
  intro s t u reg size dst buf n hr h0 hcap hb hsend hn hu hsized hd hbuf hfits hin
  obtain rfl := Host.Outcome.next.inj ((exec_send_of_pass hr h0 hcap hb).symm.trans hsend)
  generalize hq : s.regs.readBytes (4 * reg.toNat) size.toNat = q at hn hu
  obtain ⟨hcfg, hheld⟩ : u.cfg = s.cfg ∧ u.netbuf = .holding q := hu ▸ runFor_keeps_netbuf hn
  have hlen : q.length = size.toNat := by rw [← hq, RegFile.readBytes_length]
  have hsize := toInt_eq_toNat_of_nonneg h0
  have hpayload : u.netbuf.payload = q := by rw [hheld]; rfl
  have hp : ∀ k ∈ Instr.checks u (.receive dst buf), k = none := by
    rw [receive_checks_pass_iff, hcfg, hheld]
    refine ⟨hd, hbuf, ?_⟩
    rintro _ ⟨⟩
    omega
  refine ⟨_, exec_of_pass hp, rfl, ?count, fun k hk hne => ?bytes⟩
  case count =>
    rw [effect_receive_reg_dst hsized (hcfg ▸ hd), NetBuffer.size, hpayload, hlen,
      BitVec.ofNat_toNat, BitVec.setWidth_eq]
  case bytes =>
    have hj : 4 * ((4 * buf.toNat + k) / 4) + (4 * buf.toNat + k) % 4 = 4 * buf.toNat + k := by omega
    have hget : q.getD k 0 = s.regs.readByte (4 * reg.toNat + k) := by
      subst hq
      rw [← List.getElem_eq_getD (h := by omega), RegFile.readBytes_getElem]
    rw [effect_receive_byte hsized hp hne (by omega), hj, hpayload, if_pos (by omega),
      Nat.add_sub_cancel_left, hget]
    rfl

end Sys2Proof.Machine
end

section
/-! PROOFS. The invariant of the machine: it holds at the start of a session, loads and steps keep
it, and so every state of every run meets it (spec/10_state.md section 9, 60_exceptions.md section
5). -/

namespace Sys2Proof.Machine

variable {s t : State} {i : Instr} {k : Trap} {c : Config}

/-! ### Memory -/

/-- An effect whose checks pass keeps memory canonical and inside the address space. -/
theorem effect_memoryOk (hm : s.MemoryOk) (hp : ∀ k ∈ i.checks s, k = none) :
    (i.effect s).MemoryOk := by
  by_cases hstore : i.mnemonic = .store
  · rw [Instr.eq_instr_of_mnemonic hstore] at hp ⊢
    have haddr : InRange s.cfg.memorySize i.operand2 :=
      checkAddress_eq_none.1 (hp _ (by simp [Mnemonic.instr, Instr.checks]))
    exact hm.setWord haddr.toNat_lt _
  · rwa [State.MemoryOk, effect_memory_of_ne_store hstore, effect_cfg]

/-- A step keeps memory canonical and inside the address space (20_memory.md R41). -/
theorem step_memoryOk (hm : s.MemoryOk) (h : step s = .next t) : t.MemoryOk := by
  cases (step_stepTo h).2 with
  | fetchFault | unknownOpcode | checkFault => exact hm
  | effect i hi hp => exact effect_memoryOk (s := s.afterFetch) hm (checks_afterFetch i s ▸ hp)

/-! ### The fault record -/

/-- The checks of a base instruction raise no network kind (60_exceptions.md R141). -/
theorem CheckCause.base_kind (h : CheckCause s i k) (hi : i.mnemonic ∈ enabled false) :
    k.kind ∉ [.registerBytesOutOfBounds, .netPayloadTooLarge, .netReceiveBufferTooSmall] := by
  cases h with
  | register | address => simp
  | sendBytes | payload | capacity | receiveBytes => exact absurd hi (by simp [Instr.mnemonic, enabled])

/-- A state that has just faulted has its record written. -/
theorem faultRecordOk_of_faulted (ht : t.status = .faulted) (hk : t.faultKind ≠ .none)
    (hnet : t.cfg.netExt = false →
      t.faultKind ∉ [.registerBytesOutOfBounds, .netPayloadTooLarge, .netReceiveBufferTooSmall]) :
    t.FaultRecordOk :=
  ⟨iff_of_true ht hk, fun h => absurd ht h, hnet⟩

/-- A step from a state with a good fault record leaves a good one (10_state.md R28). -/
theorem step_faultRecordOk (hs : s.FaultRecordOk) (h : step s = .next t) : t.FaultRecordOk := by
  obtain ⟨hr, hst⟩ := step_stepTo h
  obtain ⟨hkind, hzero, -⟩ := hs
  cases hst with
  | fetchFault | unknownOpcode => exact faultRecordOk_of_faulted rfl nofun fun _ => by simp
  | checkFault i k hi hk =>
    have hc := checkCause_of_mem_checks hk
    exact faultRecordOk_of_faulted rfl hc.kind_ne.1 fun hext => hc.base_kind (hext ▸ hi.wellFormed)
  | effect i hi hp =>
    have hnot : (i.effect s.afterFetch).status ≠ .faulted := effect_status_ne_faulted hr
    have hnone : s.faultKind = .none := by
      by_contra hne
      exact nomatch hr.symm.trans (hkind.2 hne)
    simp only [State.FaultRecordOk, effect_faultKind, effect_faultPc, effect_faultValue,
      State.afterFetch_faultKind, State.afterFetch_faultPc, State.afterFetch_faultValue, hnone]
    exact ⟨iff_of_false hnot (· rfl), fun _ => hzero (by rw [hr]; nofun), fun _ => by simp⟩

/-! ### The end of a run -/

/-- A fault of an executing instruction leaves `pc` one instruction past it (30_encoding.md R68). -/
theorem endPcOk_of_raise (hb : FetchInBounds s.cfg s.pc) (hk : k.kind ≠ .fetchOutOfBounds) :
    (s.afterFetch.raise k).EndPcOk := by
  refine ⟨nofun, fun _ => ?_⟩
  rw [State.raise_faultKind, if_neg hk, State.afterFetch_raise_faultPc]
  exact ⟨rfl, hb⟩

/-- A step leaves `pc` of an ended run where the spec puts it (42_control.md R112, 30_encoding.md
R64). -/
theorem step_endPcOk (hc : s.cfg.WellFormed) (h : step s = .next t) : t.EndPcOk := by
  obtain ⟨hr, hst⟩ := step_stepTo h
  cases hst with
  | fetchFault hb => exact ⟨nofun, fun _ => ⟨rfl, rfl, hb⟩⟩
  | unknownOpcode hu => exact endPcOk_of_raise hu.1 nofun
  | checkFault i k hi hk => exact endPcOk_of_raise hi.1 (checkCause_of_mem_checks hk).kind_ne.2
  | effect i hi hp =>
    refine ⟨fun hhalt => ?_, fun hf => absurd hf (effect_status_ne_faulted hr)⟩
    have hm : i.mnemonic = .halt := by
      by_contra hm
      rw [effect_status_of_ne_halt _ _ hm] at hhalt
      exact nomatch hr.symm.trans hhalt
    obtain ⟨-, -, hsize, -⟩ := hc
    have hpc := hi.1.toInt_add hsize
    obtain ⟨hlow, hhigh⟩ := hi.1
    rw [effect_pc, if_neg (by rw [hm]; nofun), State.afterFetch_pc, effect_cfg, State.afterFetch_cfg,
      hpc]
    omega

/-! ### The Network Buffer -/

/-- A fetched instruction whose checks pass leaves a buffer within its bounds (43_network.md R121). -/
theorem effect_netbufOk (hs : s.NetbufOk) (hw : i.WellFormed s.cfg) (hp : ∀ k ∈ i.checks s, k = none) :
    (i.effect s).NetbufOk := by
  by_cases hbase : i.mnemonic ∈ enabled false
  · rwa [State.NetbufOk, effect_netbuf_of_base hbase, effect_cfg]
  · rcases eq_send_or_receive hbase with ⟨reg, size, rfl⟩ | ⟨dst, buf, rfl⟩
    · obtain ⟨hreg, h0, hcap, hb⟩ := send_checks_pass_iff.1 hp
      have hnonneg := hreg.1
      have hsize := toInt_eq_toNat_of_nonneg h0
      have hlen : (Instr.effect s (.send reg size)).netbuf.size = size.toNat :=
        RegFile.readBytes_length _ _ _
      rw [State.NetbufOk, hlen, effect_cfg]
      exact ⟨by omega, by omega, fun hext => absurd (hext ▸ hw) hbase⟩
    · exact ⟨Nat.zero_le _, Nat.zero_le _, fun _ => rfl⟩

/-- A step leaves the buffer within its bounds (10_state.md R31). -/
theorem step_netbufOk (hs : s.NetbufOk) (h : step s = .next t) : t.NetbufOk := by
  cases (step_stepTo h).2 with
  | fetchFault | unknownOpcode | checkFault => exact hs
  | effect i hi hp =>
    exact effect_netbufOk (s := s.afterFetch) hs hi.wellFormed (checks_afterFetch i s ▸ hp)

/-! ### The whole invariant -/

/-- A step keeps the invariant. -/
theorem State.Inv.step (hs : s.Inv) (h : step s = .next t) : t.Inv := by
  obtain ⟨hc, hregs, hm, hf, -, hn, -⟩ := hs
  have hstart : t.StartOk := fun h0 => nomatch (step_started h).symm.trans h0
  refine ⟨?cfg, ?regs, step_memoryOk hm h, step_faultRecordOk hf h, step_endPcOk hc h,
    step_netbufOk hn h, hstart⟩
  case cfg => rwa [step_cfg h]
  case regs => rwa [State.RegsSized, step_regs_length h, step_cfg h]

/-- The start of a session meets the invariant (10_state.md R34). -/
theorem createSession_inv (hc : c.WellFormed) : (createSession c).Inv :=
  have hrecord : (createSession c).FaultRecordOk :=
    ⟨iff_of_false nofun (· rfl), fun _ => ⟨rfl, rfl⟩, fun _ => by simp [createSession]⟩
  ⟨hc, List.length_replicate, ⟨⟨.nil, nofun⟩, nofun⟩, hrecord, ⟨nofun, nofun⟩,
    ⟨Nat.zero_le _, Nat.zero_le _, fun _ => rfl⟩, fun _ => rfl⟩

/-- Words written inside the address space keep memory canonical and inside it (20_memory.md R41). -/
theorem State.MemoryOk.writeWords (hm : s.MemoryOk) {a : Nat} {ws : List Word}
    (ha : a + ws.length ≤ s.cfg.memorySize) :
    ({ s with memory := s.memory.writeWords a ws } : State).MemoryOk :=
  ⟨Memory.writeWords_wf hm.1 a ws, Memory.writeWords_within hm.2 ha⟩

/-- All that a load can answer (70_reset_and_hazards.md R164, R165). -/
theorem State.load_eq_loaded {ws : List Word} {offset : Int} {n : Nat}
    (h : s.load ws offset = .loaded n t) : s.started = false ∧ 0 ≤ offset ∧
      offset + ws.length ≤ s.cfg.memorySize ∧ n = ws.length ∧
      t = { s with memory := s.memory.writeWords offset.toNat ws } := by
  unfold State.load at h
  split at h
  · cases h
  next hs =>
    split at h
    next hfit =>
      cases h
      exact ⟨by simpa using hs, hfit.1, hfit.2, rfl, rfl⟩
    · cases h

/-- A load keeps the invariant, of which it changes memory only. -/
theorem State.Inv.load (hs : s.Inv) {ws : List Word} {offset : Int} {n : Nat}
    (h : s.load ws offset = .loaded n t) : t.Inv := by
  obtain ⟨hstarted, h0, hfit, -, rfl⟩ := State.load_eq_loaded h
  obtain ⟨hc, hregs, hm, hf, hend, hn, hstart⟩ := hs
  refine ⟨hc, hregs, hm.writeWords (by omega), hf, hend, hn, fun _ => ?_⟩
  have hs := hstart hstarted
  calc ({ s with memory := s.memory.writeWords offset.toNat ws } : State)
      = { ({ State.initial s.cfg with memory := s.memory } : State) with
          memory := s.memory.writeWords offset.toNat ws } := by rw [← hs]
    _ = _ := rfl

/-- The loads of a launch keep the invariant and the configuration. -/
theorem loadAll_inv {loads : List (List Word × Int)} (hs : s.Inv) (h : loadAll s loads = .ok t) :
    t.Inv ∧ t.cfg = s.cfg := by
  induction loads generalizing s with
  | nil => cases h; exact ⟨hs, rfl⟩
  | cons load rest ih =>
    obtain ⟨ws, offset⟩ := load
    cases hl : s.load ws offset with
    | loaded n u =>
      rw [loadAll_cons_of_loaded hl] at h
      obtain ⟨hinv, hcfg⟩ := ih (hs.load hl) h
      obtain ⟨-, -, -, -, rfl⟩ := State.load_eq_loaded hl
      exact ⟨hinv, hcfg⟩
    | loaderError | refused => simp only [loadAll, hl] at h; cases h

/-! ### The statements -/

/-- Settles O30: one lemma for each part of the invariant. -/
theorem stepKeepsInvariant : Obligations.StepKeepsInvariant :=
  fun _ _ hs h => ⟨hs.step h, step_cfg h, step_started h⟩

/-- Settles O29: the created session has no memory listed, no fault and an empty buffer. -/
theorem invariantHoldsAtReset : Obligations.InvariantHoldsAtReset :=
  ⟨fun _ hc => createSession_inv hc, createSession_inv (c := defaultConfig) (by decide)⟩

/-- Settles O31: the loads of the launch and then the steps of the run keep the invariant. -/
theorem everyReachableStateMeetsInvariant : Obligations.EveryReachableStateMeetsInvariant := by
  intro c loads s n hc h
  obtain ⟨hinv, hcfg⟩ := loadAll_inv (createSession_inv hc) h
  exact runFor_induction (P := fun u => u.Inv ∧ u.cfg = c) ⟨hinv, hcfg⟩
    (fun u v hu hv => ⟨hu.1.step hv, (step_cfg hv).trans hu.2⟩) n

end Sys2Proof.Machine
end

section
/-! PROOFS. Memory as words: it is determined by them, the readout tells states apart, and what
stands in the window of the next fetch after a STORE, a load or a placed instruction
(spec/20_memory.md sections 1 and 5, 70_reset_and_hazards.md sections 2 and 3). -/

namespace Sys2Proof.Machine

variable {s t : State} {c : Config}

/-! ### Memory is determined by its words -/

/-- A byte is a byte of the word it belongs to. -/
theorem Memory.readByte_eq_byteOf (m : Memory) (k : Nat) :
    m.readByte k = byteOf (m.readWord (k / 4)) (k % 4) := by
  rw [Memory.byteOf_readWord m _ (by omega), Nat.div_add_mod]

/-- Canonical memories with equal words are equal. -/
theorem Memory.ext_of_readWord {m m' : Memory} (hm : m.wf) (hm' : m'.wf)
    (h : ∀ a, m.readWord a = m'.readWord a) : m = m' :=
  Memory.ext_of_readByte hm hm' fun k => by
    rw [Memory.readByte_eq_byteOf, Memory.readByte_eq_byteOf, h]

/-- A byte beyond every listed word is unlisted. -/
theorem Memory.Within.readByte_of_le {m : Memory} {n k : Nat} (hm : m.Within n) (hk : 4 * n ≤ k) :
    m.readByte k = unlistedByte := by
  induction m with
  | nil => rfl
  | cons e m ih =>
    obtain ⟨k', v⟩ := e
    have hlt : k' < 4 * n := hm (k', v) (by simp)
    rw [Memory.readByte_cons, if_neg (by omega)]
    exact ih fun e he => hm e (by simp [he])

/-- A word beyond the address space reads 0. -/
theorem Memory.Within.readWord_of_le {m : Memory} {n a : Nat} (hm : m.Within n) (ha : n ≤ a) :
    m.readWord a = 0 := by
  have h0 (j : Nat) : m.readByte (4 * a + j) = unlistedByte := hm.readByte_of_le (by omega)
  have hbase := h0 0
  rw [Nat.add_zero] at hbase
  rw [Memory.readWord, hbase, h0, h0, h0]
  exact Memory.readWord_nil a

/-- Settles O40: canonical memories that read alike, byte by byte, are the same list. -/
theorem memoryIsDeterminedByItsWords : Obligations.MemoryIsDeterminedByItsWords :=
  fun _ _ hs ht h => Memory.ext_of_readWord hs.1 ht.1 h

/-! ### The readout -/

/-- Statuses with one code are one status (10_state.md R27). -/
theorem RunStatus.code_injective : Function.Injective RunStatus.code := by
  have all (r : RunStatus) : r ∈ [.running, .halted, .faulted] := by cases r <;> simp
  exact fun a b h => List.inj_on_of_nodup_map (by decide) (all a) (all b) h

/-- Kinds with one code are one kind (60_exceptions.md R141). -/
theorem FaultKind.code_injective : Function.Injective FaultKind.code := by
  have all (k : FaultKind) : k ∈ [.none, .fetchOutOfBounds, .unknownOpcode, .registerIndexOutOfBounds,
      .memoryAddressOutOfBounds, .registerBytesOutOfBounds, .netPayloadTooLarge,
      .netReceiveBufferTooSmall] := by cases k <;> simp
  exact fun a b h => List.inj_on_of_nodup_map (by decide) (all a) (all b) h

/-- Listings of as many words that are equal agree on each of them. -/
theorem word_eq_of_wordsFrom_eq {a n : Nat} (h : s.wordsFrom a n = t.wordsFrom a n) {b : Nat}
    (hab : a ≤ b) (hb : b < a + n) : s.word b = t.word b := by
  induction n generalizing a with
  | zero => omega
  | succ n ih =>
    obtain ⟨hhead, htail⟩ := List.cons.inj h
    rcases Nat.eq_or_lt_of_le hab with rfl | hlt
    · exact hhead
    · exact ih htail hlt (by omega)

/-- Memories inside the address space with equal listings of it are equal. -/
theorem memory_eq_of_wordsFrom_eq (hs : s.MemoryOk) (ht : t.MemoryOk) (hc : s.cfg = t.cfg)
    (h : s.wordsFrom 0 s.cfg.memorySize = t.wordsFrom 0 s.cfg.memorySize) : s.memory = t.memory := by
  refine Memory.ext_of_readWord hs.1 ht.1 fun a => ?_
  by_cases ha : a < s.cfg.memorySize
  · exact word_eq_of_wordsFrom_eq h (Nat.zero_le a) (by omega)
  · rw [hs.2.readWord_of_le (by omega), ht.2.readWord_of_le (by rw [← hc]; omega)]

/-- The readout shows the buffer where there is one, and elsewhere it is empty (10_state.md R31). -/
theorem netbuf_eq_of_readout (hs : s.NetbufOk) (ht : t.NetbufOk) (hc : s.cfg = t.cfg)
    (h : s.readout.netbuf = t.readout.netbuf) : s.netbuf = t.netbuf := by
  obtain ⟨-, -, hs⟩ := hs
  obtain ⟨-, -, ht⟩ := ht
  cases hext : s.cfg.netExt with
  | false => rw [hs hext, ht (hc ▸ hext)]
  | true => simpa only [State.readout, ← hc, hext, if_true, Option.some.injEq] using h

/-- Settles O41: every field but `started` is read out, the status and the kind by codes that tell them
apart, and memory by all words of the address space. -/
theorem readoutDeterminesTheState : Obligations.ReadoutDeterminesTheState := by
  intro s t hs ht hc h
  obtain ⟨-, -, hsm, -, -, hsn, -⟩ := hs
  obtain ⟨-, -, htm, -, -, htn, -⟩ := ht
  have hnetbuf := netbuf_eq_of_readout hsn htn hc (congrArg Readout.netbuf h)
  have hwords : s.wordsFrom 0 s.cfg.memorySize = t.wordsFrom 0 t.cfg.memorySize :=
    congrArg Readout.memory h
  have hmemory := memory_eq_of_wordsFrom_eq hsm htm hc (hc ▸ hwords)
  have hstatus := RunStatus.code_injective (congrArg Readout.status h)
  have hkind := FaultKind.code_injective (congrArg Readout.faultKind h)
  have hregs : s.regs = t.regs := congrArg Readout.regs h
  have hpc : s.pc = t.pc := congrArg Readout.pc h
  have hfaultPc : s.faultPc = t.faultPc := congrArg Readout.faultPc h
  have hfaultValue : s.faultValue = t.faultValue := congrArg Readout.faultValue h
  cases s; cases t
  simp_all

/-! ### The load port -/

/-- Settles O42: the written range reads as the loaded words and the rest as before. -/
theorem loadPortIsAllOrNothing : Obligations.LoadPortIsAllOrNothing := by
  intro s ws offset hm
  refine ⟨fun hs h0 hfit => ?loaded, fun hs hfit => ?loaderError, fun t u h => ?closed⟩
  case loaded =>
    refine ⟨_, State.load_of_fits hs h0 hfit,
      fun i hi => Memory.readWord_writeWords_inside hm.1 offset.toNat ws hi,
      fun a ha => Memory.readWord_writeWords_outside s.memory (by omega),
      hm.writeWords (by omega), rfl, rfl, rfl, rfl, rfl, rfl, rfl, rfl, rfl⟩
  case loaderError => rw [State.load, hs, if_neg Bool.false_ne_true, if_neg hfit]
  case closed => rw [State.load, step_started h, if_pos rfl]

/-! ### The window after memory is written -/

/-- The core fetches the instruction that three words of memory at `pc` decode to. -/
theorem fetches_of_words {i : Instr} {op a b : Word} (hb : FetchInBounds s.cfg s.pc)
    (h0 : s.word s.pc.toNat = op) (h1 : s.word (s.pc.toNat + 1) = a) (h2 : s.word (s.pc.toNat + 2) = b)
    (hd : decode s.cfg op a b = .ok i) : s.Fetches i := by
  subst h0 h1 h2
  exact ⟨hb, hd⟩

/-- Three words that decode as a stream decode as an instruction. -/
theorem decode_of_decodeWords {i : Instr} {op a b : Word}
    (h : decodeWords c [op, a, b] = .ok (i, [])) : decode c op a b = .ok i := by
  cases hd : decode c op a b with
  | ok j => simp only [decodeWords, hd] at h; cases h; rfl
  | error e => simp only [decodeWords, hd] at h; cases h

/-- Settles O44: the three placed words are the next window. -/
theorem stepRunsThePlacedInstruction : Obligations.StepRunsThePlacedInstruction := by
  intro s nbits w i hr hm hb hd
  have hplaced : s.withFetchWord nbits w =
      { s with memory := s.memory.writeWords s.pc.toNat (tableWords nbits w) } := if_pos hb
  rw [hplaced]
  have word {j : Nat} (hj : j < (tableWords nbits w).length) :=
    Memory.readWord_writeWords_inside hm.1 s.pc.toNat (tableWords nbits w) hj
  have hlen : (tableWords nbits w).length = 3 := rfl
  have hf : State.Fetches
      { s with memory := s.memory.writeWords s.pc.toNat (tableWords nbits w) } i :=
    fetches_of_words hb (word (j := 0) (by omega)) (word (j := 1) (by omega)) (word (j := 2) (by omega))
      (decode_of_decodeWords hd)
  exact ⟨step_of_fetches hr hf, rfl, rfl⟩

/-- A word of a state after one word was written. -/
theorem State.setWord_word (hm : s.memory.wf) (a : Nat) (v : Word) (b : Nat) :
    (s.setWord a v).word b = if b = a then v else s.word b := by
  split
  next h => rw [h, State.setWord_word_same hm]
  next h => exact State.setWord_word_other s h v

/-- Settles O12: the step writes one word of memory, and the window of a later fetch reads memory. -/
theorem storeIsSeenByTheNextFetch : Obligations.StoreIsSeenByTheNextFetch := by
  intro s reg addr ⟨_, _, hm, _⟩ hr hf hreg haddr
  have hstep : step s = .next (s.afterFetch.setWord addr.toNat (s.reg reg.toNat)) :=
    (step_of_fetches hr hf).trans (exec_store_of_inRange (s := s.afterFetch) hreg haddr)
  have hword (a : Nat) : (s.afterFetch.setWord addr.toNat (s.reg reg.toNat)).word a =
      if a = addr.toNat then s.reg reg.toNat else s.word a :=
    State.setWord_word (s := s.afterFetch) hm.1 _ _ _
  refine ⟨_, hstep, hr, rfl, hword, fun p hlow hhigh => ?window⟩
  case window =>
    simp only [State.window, State.setPc_word, State.setPc_pc, hword, eq_comm (a := addr.toNat)]

end Sys2Proof.Machine
end

section
/-! PROOFS. ADD and SUB modulo 2^32, and the closed form of any sequence of LOAD, ADD and SUB
(spec/41_alu.md R102, R103). -/

namespace Sys2Proof.Machine

variable {s t : State} {i : Instr} {x : Nat → Int}

/-! ### Wrapping -/

/-- The wrapped word is congruent to what was wrapped (00_scope.md R9). -/
theorem wrap32_toInt_modEq (v : Int) : (wrap32 v).toInt ≡ v [ZMOD 2 ^ 32] := by
  rw [wrap32, BitVec.toInt_ofInt]
  exact Int.bmod_emod

/-- Integers congruent modulo 2^32 wrap to one word. -/
theorem wrap32_eq_of_modEq {v w : Int} (h : v ≡ w [ZMOD 2 ^ 32]) : wrap32 v = wrap32 w := by
  have hmod : v % (2 ^ 32 : Nat) = w % (2 ^ 32 : Nat) := h
  apply BitVec.eq_of_toInt_eq
  rw [wrap32, wrap32, BitVec.toInt_ofInt, BitVec.toInt_ofInt, ← Int.emod_bmod, hmod, Int.emod_bmod]

/-- A word is the wrapping of its value. -/
theorem wrap32_toInt (v : Word) : wrap32 v.toInt = v := BitVec.ofInt_toInt

/-- Settles O15: the result is the wrapped exact one, and wrapping the exact sum is the addition of the
words. -/
theorem arithmeticWrapsModulo32Bits : Obligations.ArithmeticWrapsModulo32Bits := by
  intro s a b hs ha hb
  refine ⟨⟨_, exec_add_of_inRange ha hb, ?_, ?_⟩, ⟨_, exec_sub_of_inRange ha hb, ?_⟩⟩
  · rw [hs.setReg_reg_same ha]
    exact wrap32_toInt_modEq _
  · rw [hs.setReg_reg_same ha, wrap32_add]
    exact BitVec.toNat_add _ _
  · rw [hs.setReg_reg_same ha]
    exact wrap32_toInt_modEq _

/-! ### The closed form -/

/-- The registers of `s` are the integers `x`, wrapped. -/
def State.WrapsTo (s : State) (x : Nat → Int) : Prop :=
  ∀ r < s.cfg.numRegisters, s.reg r = wrap32 (x r)

/-- The register that an instruction writes holds the wrapping of the integer written beside it. -/
theorem State.WrapsTo.setReg (hx : s.WrapsTo x) (hs : s.RegsSized) {a : Word}
    (ha : InRange s.cfg.numRegisters a) {v : Word} {y : Int} (hv : v = wrap32 y) :
    (s.setReg a.toNat v).WrapsTo (Function.update x a.toNat y) := by
  intro r hr
  by_cases h : r = a.toNat
  · subst h
    rw [hs.setReg_reg_same ha, hv, Function.update_self]
  · rw [State.setReg_reg_other s h, Function.update_of_ne h]
    exact hx r hr

/-- Wrapping between two operations makes no difference to the wrapped result (41_alu.md R103). -/
theorem wrap32_add_wrap32 (v w : Int) : wrap32 ((wrap32 v).toInt + (wrap32 w).toInt) = wrap32 (v + w) :=
  wrap32_eq_of_modEq ((wrap32_toInt_modEq v).add (wrap32_toInt_modEq w))

theorem wrap32_sub_wrap32 (v w : Int) : wrap32 ((wrap32 v).toInt - (wrap32 w).toInt) = wrap32 (v - w) :=
  wrap32_eq_of_modEq ((wrap32_toInt_modEq v).sub (wrap32_toInt_modEq w))

/-- What a LOAD, ADD or SUB leaves unchanged. -/
def SameButRegs (s t : State) : Prop :=
  SameWords s t ∧ t.pc = s.pc ∧ t.netbuf = s.netbuf ∧ SameSession s t

theorem SameButRegs.refl (s : State) : SameButRegs s s :=
  ⟨fun _ _ => rfl, rfl, rfl, rfl, rfl, rfl, rfl, rfl, rfl⟩

theorem SameButRegs.trans {s t u : State} (h : SameButRegs s t) (h' : SameButRegs t u) :
    SameButRegs s u := by
  obtain ⟨hw, hpc, hn, hc, hst, hs, hk, hp, hv⟩ := h
  obtain ⟨hw', hpc', hn', hc', hst', hs', hk', hp', hv'⟩ := h'
  exact ⟨fun a ha => (hw' a ha).trans (hw a ha), hpc'.trans hpc, hn'.trans hn, hc'.trans hc,
    hst'.trans hst, hs'.trans hs, hk'.trans hk, hp'.trans hp, hv'.trans hv⟩

/-- It leaves the configuration. -/
theorem SameButRegs.cfg (h : SameButRegs s t) : t.cfg = s.cfg := by
  obtain ⟨-, -, -, hc, -⟩ := h
  exact hc

theorem State.sameButRegs_setReg (s : State) (r : Nat) (v : Word) : SameButRegs s (s.setReg r v) :=
  ⟨State.sameWords_setReg s r v, rfl, rfl, State.sameSession_setReg s r v⟩

/-- One LOAD, ADD or SUB follows the integers. -/
theorem exec_wrapsTo (hs : s.RegsSized) (hi : RegisterArithmetic s.cfg i) (hx : s.WrapsTo x) :
    ∃ t, exec i s = .next t ∧ t.RegsSized ∧ t.WrapsTo (closedFormStep x i) ∧ SameButRegs s t := by
  have sized (r : Nat) (v : Word) : (s.setReg r v).RegsSized := (RegFile.write_length _ _ _).trans hs
  cases i with
  | load r imm =>
    exact ⟨_, exec_load_of_inRange hi, sized _ _, hx.setReg hs hi (wrap32_toInt imm).symm,
      State.sameButRegs_setReg _ _ _⟩
  | add a b =>
    obtain ⟨ha, hb⟩ := hi
    refine ⟨_, exec_add_of_inRange ha hb, sized _ _, hx.setReg hs ha ?_, State.sameButRegs_setReg _ _ _⟩
    rw [hx _ ha.toNat_lt, hx _ hb.toNat_lt, wrap32_add_wrap32]
  | sub a b =>
    obtain ⟨ha, hb⟩ := hi
    refine ⟨_, exec_sub_of_inRange ha hb, sized _ _, hx.setReg hs ha ?_, State.sameButRegs_setReg _ _ _⟩
    rw [hx _ ha.toNat_lt, hx _ hb.toNat_lt, wrap32_sub_wrap32]
  | store | jmp | halt | send | receive => exact hi.elim

/-- A sequence of them follows the closed form from any integers that the registers wrap. -/
theorem execAll_wrapsTo (is : List Instr) (hs : s.RegsSized)
    (his : ∀ i ∈ is, RegisterArithmetic s.cfg i) (hx : s.WrapsTo x) :
    ∃ t, execAll is s = some t ∧ t.WrapsTo (closedForm is x) ∧ SameButRegs s t := by
  induction is generalizing s x with
  | nil => exact ⟨s, rfl, hx, .refl s⟩
  | cons i is ih =>
    obtain ⟨t, ht, hsized, hxt, hst⟩ := exec_wrapsTo hs (his i (by simp)) hx
    obtain ⟨u, hu, hxu, htu⟩ := ih hsized (fun j hj => hst.cfg ▸ his j (by simp [hj])) hxt
    exact ⟨u, by rw [execAll, ht]; exact hu, hxu, hst.trans htu⟩

/-- Settles O16: every register wraps its own value, and each instruction keeps the simulation. -/
theorem registerArithmeticHasClosedForm : Obligations.RegisterArithmeticHasClosedForm := by
  intro is s hs his
  have hx : s.WrapsTo fun k => (s.reg k).toInt := fun r _ => (wrap32_toInt _).symm
  obtain ⟨t, ht, hxt, hsame⟩ := execAll_wrapsTo is hs his hx
  exact ⟨t, ht, hsame.cfg ▸ hxt, hsame⟩

end Sys2Proof.Machine
end

section
/-! PROOFS. Runs: a run stays at its end, what fuel reports, and the run over a zero-filled tail
(spec/42_control.md R113, R114; 60_exceptions.md R158). -/

namespace Sys2Proof.Machine

variable {s t u : State}

/-! ### The end of a run -/

/-- A run that has ended stays at its end. -/
theorem State.runFor_of_ended {m n : Nat} (hend : (s.runFor m).status ≠ .running) (hmn : m ≤ n) :
    s.runFor n = s.runFor m := by
  induction m generalizing s n with
  | zero => exact State.runFor_of_not_running hend n
  | succ m ih =>
    by_cases hr : s.status = .running
    · obtain ⟨t, ht⟩ := exists_step_of_running hr
      obtain ⟨n, rfl⟩ : ∃ n', n = n' + 1 := ⟨n - 1, by omega⟩
      rw [State.runFor_succ_of_step ht] at hend ⊢
      rw [State.runFor_succ_of_step ht]
      exact ih hend (by omega)
    · rw [State.runFor_of_not_running hr, State.runFor_of_not_running hr]

/-- A run has at most one end. -/
theorem EndsAt.unique (ht : EndsAt s t) (hu : EndsAt s u) : t = u := by
  obtain ⟨ht, m, rfl⟩ := ht
  obtain ⟨hu, n, rfl⟩ := hu
  rcases Nat.le_total m n with h | h
  · exact (State.runFor_of_ended ht h).symm
  · exact State.runFor_of_ended hu h

/-- A run from an ended state ends there. -/
theorem EndsAt.refl (h : s.status ≠ .running) : EndsAt s s := ⟨h, 0, rfl⟩

/-- The end of the next state's run is the end of the run (60_exceptions.md R158). -/
theorem EndsAt.of_step (h : step s = .next t) (hu : EndsAt t u) : EndsAt s u := by
  obtain ⟨hu, n, hn⟩ := hu
  exact ⟨hu, n + 1, (State.runFor_succ_of_step h n).trans hn⟩

/-- Settles O39: an end is Halted or Faulted, and there is at most one. -/
theorem runHasAtMostOneEnd : Obligations.RunHasAtMostOneEnd := by
  refine ⟨fun s t u ht hu => ht.unique hu, fun s => ?exclusive,
    fun s => ⟨fun h => ?infinite, fun h n => ?endless⟩⟩
  case exclusive =>
    rintro ⟨⟨t, ht, hhalted⟩, ⟨u, hu, hfaulted⟩⟩
    cases ht.unique hu
    exact nomatch hhalted.symm.trans hfaulted
  case infinite =>
    rintro (⟨t, ⟨ht, n, rfl⟩, -⟩ | ⟨t, ⟨ht, n, rfl⟩, -⟩)
    · exact ht (h n)
    · exact ht (h n)
  case endless =>
    cases hn : (s.runFor n).status with
    | running => rfl
    | halted => exact absurd (.inl ⟨_, ⟨by rw [hn]; nofun, n, rfl⟩, hn⟩) h
    | faulted => exact absurd (.inr ⟨_, ⟨by rw [hn]; nofun, n, rfl⟩, hn⟩) h

/-- Settles O50: a report under fuel is the state reached, which stays under more fuel. -/
theorem fuelledRunReportsEndOrOutOfFuel : Obligations.FuelledRunReportsEndOrOutOfFuel := by
  refine ⟨fun s t => ?ends, fun s t fuel more hle h => ?monotone, fun s => ?infinite,
    fun s unused hr hf fuel => ?selfJump⟩
  case ends =>
    simp only [run_eq_ended, EndsAt]
    exact ⟨fun ⟨n, hn, ht⟩ => ⟨ht, n, hn⟩, fun ⟨ht, n, hn⟩ => ⟨n, hn, ht⟩⟩
  case monotone =>
    obtain ⟨rfl, ht⟩ := run_eq_ended.1 h
    exact run_eq_ended.2 ⟨State.runFor_of_ended ht hle, ht⟩
  case infinite => simp only [RunsForever, run_eq_outOfFuel]
  case selfJump => exact run_eq_outOfFuel.2 (State.AtSelfJump.runsForever ⟨hr, unused, hf⟩ fuel)

/-! ### A zero-filled tail -/

/-- The core runs at or before the end of memory, with LOAD's opcode 0 and nothing but zeros from `pc`
on. -/
structure State.ZeroTail (s : State) : Prop where
  running : s.status = .running
  wellFormed : s.cfg.WellFormed
  sized : s.RegsSized
  loadIsZero : s.cfg.opcodeMap.load = 0
  pc_nonneg : 0 ≤ s.pc.toInt
  pc_le : s.pc.toInt ≤ s.cfg.memorySize
  zeros : ∀ a, s.pc.toNat ≤ a → a < s.cfg.memorySize → s.word a = 0

/-- `t` is the fetch fault at the end of the tail that starts at `s`, with `x[0]` cleared if
anything was executed (42_control.md R113). -/
structure TailFault (s t : State) : Prop where
  status : t.status = .faulted
  kind : t.faultKind = .fetchOutOfBounds
  faultPc : t.faultPc = t.pc
  value : t.faultValue = t.pc
  low : (s.cfg.memorySize : Int) - 2 ≤ t.pc.toInt
  high : t.pc.toInt ≤ s.cfg.memorySize
  ge : s.pc.toInt ≤ t.pc.toInt
  mod : t.pc.toInt % 3 = s.pc.toInt % 3
  cleared : s.pc.toInt < t.pc.toInt → t.reg 0 = 0
  regs : SameRegsBut (· = 0) s t
  regs_same : s.pc = t.pc → t.regs = s.regs
  words : SameWords s t
  netbuf : t.netbuf = s.netbuf

/-- The zero word is the index of a register. -/
theorem State.ZeroTail.inRange_zero (h : s.ZeroTail) : InRange s.cfg.numRegisters 0 := by
  obtain ⟨hregs, -⟩ := h.wellFormed
  have hzero : (0 : Word).toInt = 0 := rfl
  rw [InRange, hzero]
  omega

/-- Inside the tail the core fetches `LOAD 0 0` (decision D1). -/
theorem State.ZeroTail.fetches (h : s.ZeroTail) (hb : FetchInBounds s.cfg s.pc) :
    s.Fetches (.load 0 0) := by
  have hpc := toInt_eq_toNat_of_nonneg h.pc_nonneg
  have hlt := hb.2
  obtain ⟨-, -, -, hmap⟩ := h.wellFormed
  have hmem : Mnemonic.load ∈ enabled s.cfg.netExt := mem_enabled_of_mem_base (by decide) _
  refine fetches_of_words (op := 0) hb (h.zeros _ ?_ ?_) (h.zeros _ ?_ ?_) (h.zeros _ ?_ ?_)
    (h.loadIsZero ▸ decode_value hmap hmem 0 0) <;> omega

/-- The step inside the tail clears `x[0]`. -/
theorem State.ZeroTail.step_eq (h : s.ZeroTail) (hb : FetchInBounds s.cfg s.pc) :
    step s = .next (s.afterFetch.setReg 0 0) :=
  (step_of_fetches h.running (h.fetches hb)).trans
    (exec_load_of_inRange (s := s.afterFetch) h.inRange_zero)

/-- After it the tail goes on, 3 further. -/
theorem State.ZeroTail.next (h : s.ZeroTail) (hb : FetchInBounds s.cfg s.pc) :
    (s.afterFetch.setReg 0 0).ZeroTail ∧
      (s.afterFetch.setReg 0 0).pc.toInt = s.pc.toInt + 3 := by
  obtain ⟨-, -, hsize, -⟩ := h.wellFormed
  have hpc : (s.pc + 3).toInt = s.pc.toInt + 3 := hb.toInt_add hsize
  have hlt := hb.2
  have hnonneg := h.pc_nonneg
  have hnat := toInt_eq_toNat_of_nonneg h.pc_nonneg
  have hnat' := toInt_eq_toNat_of_nonneg (w := s.pc + 3) (by omega)
  refine ⟨⟨h.running, h.wellFormed, (RegFile.write_length _ _ _).trans h.sized, h.loadIsZero,
    ?_, ?_, fun a hlow hhigh => ?_⟩, hpc⟩
  · show 0 ≤ (s.pc + 3).toInt
    omega
  · show (s.pc + 3).toInt ≤ s.cfg.memorySize
    omega
  · have hlow : (s.pc + 3).toNat ≤ a := hlow
    exact h.zeros a (by omega) hhigh

/-- At the end of the tail the step is the fetch fault. -/
theorem State.ZeroTail.tailFault (h : s.ZeroTail) (hb : ¬ FetchInBounds s.cfg s.pc) :
    TailFault s (s.start.raiseAt s.pc ⟨.fetchOutOfBounds, s.pc⟩) where
  status := rfl
  kind := rfl
  faultPc := rfl
  value := rfl
  low := by
    have h0 := h.pc_nonneg
    show (s.cfg.memorySize : Int) - 2 ≤ s.pc.toInt
    rw [FetchInBounds] at hb
    omega
  high := h.pc_le
  ge := le_refl _
  mod := rfl
  cleared hlt := absurd hlt (lt_irrefl _)
  regs := ⟨rfl, fun _ _ => rfl⟩
  regs_same _ := rfl
  words _ _ := rfl
  netbuf := rfl

/-- The fault at the end of the rest of the tail is the fault at the end of the whole. -/
theorem TailFault.of_step (h : s.ZeroTail) (hb : FetchInBounds s.cfg s.pc)
    (ht : TailFault (s.afterFetch.setReg 0 0) t) : TailFault s t := by
  obtain ⟨-, hpc⟩ := h.next hb
  have hge := ht.ge
  have hmod := ht.mod
  rw [hpc] at hge hmod
  have hzero : (s.afterFetch.setReg 0 0).reg 0 = 0 :=
    State.RegsSized.setReg_reg_same (s := s.afterFetch) h.sized h.inRange_zero 0
  obtain ⟨hlen, hregs⟩ := ht.regs
  exact {
    status := ht.status
    kind := ht.kind
    faultPc := ht.faultPc
    value := ht.value
    low := ht.low
    high := ht.high
    ge := by omega
    mod := by omega
    cleared := fun _ => by
      rcases lt_or_eq_of_le ht.ge with hlt | heq
      · exact ht.cleared hlt
      · rw [State.reg, ht.regs_same (BitVec.eq_of_toInt_eq heq)]
        exact hzero
    regs := ⟨hlen.trans (RegFile.write_length _ _ _),
      fun r hr => (hregs r hr).trans (State.setReg_reg_other s.afterFetch hr 0)⟩
    regs_same := fun heq => by rw [heq] at hge; omega
    words := ht.words
    netbuf := ht.netbuf }

/-- The run over a tail of `n` words or fewer ends in the fault at its end. -/
theorem State.ZeroTail.endsAt (n : Nat) (h : s.ZeroTail) (hn : s.cfg.memorySize - s.pc.toInt ≤ n) :
    ∃ t, EndsAt s t ∧ TailFault s t := by
  induction n using Nat.strong_induction_on generalizing s with
  | _ n ih =>
    by_cases hb : FetchInBounds s.cfg s.pc
    · obtain ⟨hnext, hpc⟩ := h.next hb
      have hlt := hb.2
      obtain ⟨t, ht, hfault⟩ := ih (n - 3) (by omega) hnext (by
        rw [hpc]
        show (s.cfg.memorySize : Int) - (s.pc.toInt + 3) ≤ (n - 3 : Nat)
        omega)
      exact ⟨t, .of_step (h.step_eq hb) ht, .of_step h hb hfault⟩
    · have hfault := h.tailFault hb
      exact ⟨_, .of_step (step_of_not_fetchInBounds h.running hb)
        (.refl (by rw [hfault.status]; nofun)), hfault⟩

/-- Settles O20: induction on the length of the tail; the offset of the fault is determined modulo 3. -/
theorem zeroFilledTailEndsInFetchFault : Obligations.ZeroFilledTailEndsInFetchFault := by
  intro s ⟨hc, hs, _⟩ hr hload h0 hle hzeros
  have htail : s.ZeroTail := ⟨hr, hc, hs, hload, h0, hle, hzeros⟩
  obtain ⟨t, ht, hf⟩ := htail.endsAt s.cfg.memorySize (by omega)
  refine ⟨t, ht, hf.status, hf.kind, hf.faultPc, hf.value, hf.low, hf.high, hf.ge, hf.mod, hf.cleared,
    hf.regs, hf.regs_same, hf.words, hf.netbuf, fun h256 => ?_⟩
  have hlow := hf.low
  have hhigh := hf.high
  have hmod := hf.mod
  rw [h256] at hlow hhigh
  split
  · omega
  · split <;> omega

end Sys2Proof.Machine
end

section
/-! PROOFS. The assembler reads back what the printer writes: digits, words, tokens, lines
(spec/30_encoding.md R75 to R83, decision D17). -/

namespace Sys2Proof.Machine

/-! ### Digits -/

/-- A digit reads back as its value (30_encoding.md R80). -/
theorem digitValue_digitChar : ∀ d < 10, digitValue (digitChar d) = some d := by decide

/-- The digits are neither signs nor whitespace (30_encoding.md R76, R77, R80). -/
theorem digitChar_plain : ∀ d < 10, digitChar d ≠ '+' ∧ digitChar d ≠ '-' ∧ digitChar d ≠ '\n' ∧
    isBlank (digitChar d) = false := by decide

/-- Digits are read from left to right. -/
theorem parseDigits_append (cs ds : List Char) (acc : Nat) :
    parseDigits (cs ++ ds) acc = (parseDigits cs acc).bind (parseDigits ds) := by
  induction cs generalizing acc with
  | nil => rfl
  | cons ch cs ih =>
    rw [List.cons_append, parseDigits, parseDigits]
    cases digitValue ch with
    | none => rfl
    | some d => exact ih _

/-- One digit more. -/
theorem parseDigits_singleton {d : Nat} (hd : d < 10) (acc : Nat) :
    parseDigits [digitChar d] acc = some (10 * acc + d) := by
  simp only [parseDigits, digitValue_digitChar d hd]

/-- A number of at most `fuel` digits reads back as itself. -/
theorem parseDigits_printDigits {fuel n : Nat} (hn : n < 10 ^ fuel) :
    parseDigits (printDigits fuel n) 0 = some n := by
  induction fuel generalizing n with
  | zero => rw [show n = 0 by omega]; rfl
  | succ fuel ih =>
    rw [printDigits]
    split
    next h => rw [parseDigits_singleton h, Nat.mul_zero, Nat.zero_add]
    next h =>
      rw [parseDigits_append, ih (by omega), Option.bind_some, parseDigits_singleton (by omega),
        Nat.div_add_mod]

/-- Every character that the printer writes for a number is a digit. -/
theorem mem_printDigits {fuel n : Nat} {ch : Char} (h : ch ∈ printDigits fuel n) :
    ∃ d < 10, ch = digitChar d := by
  induction fuel generalizing n with
  | zero => cases h
  | succ fuel ih =>
    rw [printDigits] at h
    split at h
    next hn => exact ⟨n, hn, List.mem_singleton.1 h⟩
    next hn =>
      rcases List.mem_append.1 h with h | h
      · exact ih h
      · exact ⟨n % 10, by omega, List.mem_singleton.1 h⟩

/-- A number has at least one digit. -/
theorem printDigits_ne_nil (fuel n : Nat) : printDigits (fuel + 1) n ≠ [] := by
  rw [printDigits]
  split <;> simp

/-- A number that is printed reads back as itself (30_encoding.md R80). -/
theorem parseNat_printDigits {fuel n : Nat} (hn : n < 10 ^ (fuel + 1)) :
    parseNat (printDigits (fuel + 1) n) = some n := by
  rw [parseNat, if_neg (by simpa using printDigits_ne_nil fuel n), parseDigits_printDigits hn]

/-! ### Words -/

/-- Digits without a sign are read as a number. -/
theorem parseInt_of_digits {cs : List Char} {n : Nat} (h : ∀ ch ∈ cs, ∃ d < 10, ch = digitChar d)
    (hn : parseNat cs = some n) : parseInt cs = some (n : Int) := by
  cases cs with
  | nil => cases hn
  | cons ch cs =>
    obtain ⟨d, hd, rfl⟩ := h ch (by simp)
    obtain ⟨hplus, hminus, -⟩ := digitChar_plain d hd
    rw [parseInt, if_neg hplus, if_neg hminus, hn]
    rfl

/-- The decimal form of a word reads back as its value (30_encoding.md R80, R83). -/
theorem parseInt_printWord (w : Word) : parseInt (printWord w) = some w.toInt := by
  have hlow : -2147483648 ≤ w.toInt := BitVec.le_toInt w
  have hhigh : w.toInt < 2147483648 := BitVec.toInt_lt
  have hdigits : parseNat (printDigits 10 w.toInt.natAbs) = some w.toInt.natAbs :=
    parseNat_printDigits (by omega)
  rw [printWord]
  split
  next hneg =>
    have hvalue : w.toInt = -(w.toInt.natAbs : Int) := by omega
    rw [parseInt, if_neg (by decide), if_pos rfl, hdigits]
    exact congrArg some hvalue.symm
  next hneg =>
    have hvalue : w.toInt = (w.toInt.natAbs : Int) := by omega
    rw [parseInt_of_digits (fun _ => mem_printDigits) hdigits, ← hvalue]

/-- A printed word reads back as itself (30_encoding.md R83). -/
theorem parseWord_printWord (w : Word) : parseWord (printWord w) = some w := by
  have hlow : -2147483648 ≤ w.toInt := BitVec.le_toInt w
  have hhigh : w.toInt < 2147483648 := BitVec.toInt_lt
  simp only [parseWord, parseInt_printWord]
  rw [if_pos (by omega), BitVec.ofInt_toInt]

/-- A printed word holds no whitespace and is not empty: it is one token. -/
theorem printWord_plain (w : Word) :
    printWord w ≠ [] ∧ ∀ ch ∈ printWord w, ch ≠ '\n' ∧ isBlank ch = false := by
  have digits : ∀ ch ∈ printDigits 10 w.toInt.natAbs, ch ≠ '\n' ∧ isBlank ch = false := fun ch h => by
    obtain ⟨d, hd, rfl⟩ := mem_printDigits h
    obtain ⟨-, -, hplain⟩ := digitChar_plain d hd
    exact hplain
  rw [printWord]
  split
  · exact ⟨by simp, List.forall_mem_cons.2 ⟨by decide, digits⟩⟩
  · exact ⟨printDigits_ne_nil _ _, digits⟩

/-- Settles O45: the sign and the digits read back. -/
theorem printedWordParsesBack : Obligations.PrintedWordParsesBack := parseWord_printWord

/-! ### Tokens -/

/-- Characters other than whitespace join the current token. -/
theorem tokensFrom_append {tok : List Char} (h : ∀ ch ∈ tok, isBlank ch = false)
    (rest cur : List Char) : tokensFrom (tok ++ rest) cur = tokensFrom rest (tok.reverse ++ cur) := by
  induction tok generalizing cur with
  | nil => rfl
  | cons ch tok ih =>
    obtain ⟨hch, htok⟩ := List.forall_mem_cons.1 h
    rw [List.cons_append, tokensFrom, if_neg (by simp [hch]), ih htok, List.reverse_cons,
      List.append_assoc, List.singleton_append]

/-- A token before a space (30_encoding.md R77). -/
theorem tokensFrom_token_space {tok : List Char} (hne : tok ≠ []) (h : ∀ ch ∈ tok, isBlank ch = false)
    (rest : List Char) : tokensFrom (tok ++ ' ' :: rest) [] = tok :: tokensFrom rest [] := by
  rw [tokensFrom_append h, List.append_nil, tokensFrom, if_pos (by decide), if_neg (by simpa using hne),
    List.reverse_reverse]

/-- A token at the end of a line (30_encoding.md R77). -/
theorem tokensFrom_token {tok : List Char} (hne : tok ≠ []) (h : ∀ ch ∈ tok, isBlank ch = false) :
    tokensFrom tok [] = [tok] := by
  have happ := tokensFrom_append h [] []
  rw [List.append_nil, List.append_nil] at happ
  rw [happ, tokensFrom, if_neg (by simpa using hne), List.reverse_reverse]

/-- The name of a mnemonic is one token. -/
theorem mnemonicName_plain (m : Mnemonic) :
    mnemonicName m ≠ [] ∧ ∀ ch ∈ mnemonicName m, ch ≠ '\n' ∧ isBlank ch = false := by
  have hall : (mnemonicName m).all (fun ch => ch != '\n' && !isBlank ch) = true := by cases m <;> rfl
  refine ⟨by cases m <;> nofun, fun ch h => ?_⟩
  simpa using List.all_eq_true.1 hall ch h

/-- The tokens of a printed instruction (30_encoding.md R83). -/
theorem tokens_printInstr (i : Instr) :
    tokens (printInstr i) = [mnemonicName i.mnemonic, printWord i.operand1, printWord i.operand2] := by
  obtain ⟨hm, hmc⟩ := mnemonicName_plain i.mnemonic
  obtain ⟨ha, hac⟩ := printWord_plain i.operand1
  obtain ⟨hb, hbc⟩ := printWord_plain i.operand2
  rw [tokens, printInstr, tokensFrom_token_space hm fun ch h => (hmc ch h).2,
    tokensFrom_token_space ha fun ch h => (hac ch h).2, tokensFrom_token hb fun ch h => (hbc ch h).2]

/-- The assembler recognizes the names of the base mnemonics (30_encoding.md R79). -/
theorem parseMnemonic_mnemonicName {m : Mnemonic} (hm : m ∈ enabled false) :
    parseMnemonic (mnemonicName m) = some m := by
  revert m
  decide

/-- A printed base instruction parses to itself (30_encoding.md R78, R83). -/
theorem parseLine_printInstr {i : Instr} (hi : i.mnemonic ∈ enabled false) :
    parseLine (printInstr i) = some i := by
  simp only [parseLine, tokens_printInstr, parseMnemonic_mnemonicName hi, parseWord_printWord,
    Instr.mnemonic_instr_operands]

/-- Whatever parses is a base instruction (30_encoding.md R79). -/
theorem mnemonic_of_parseLine {line : List Char} {i : Instr} (h : parseLine line = some i) :
    i.mnemonic ∈ enabled false := by
  unfold parseLine at h
  split at h
  · split at h
    · cases h; decide
    · cases h
  next m a b =>
    split at h
    next hm _ _ =>
      cases h
      rw [Mnemonic.instr_mnemonic]
      exact List.mem_of_find?_eq_some hm
    · cases h
  · cases h

/-! ### Lines -/

/-- Characters other than newlines join the current line. -/
theorem splitLinesFrom_append {line : List Char} (h : ∀ ch ∈ line, ch ≠ '\n') (rest cur : List Char) :
    splitLinesFrom (line ++ rest) cur = splitLinesFrom rest (line.reverse ++ cur) := by
  induction line generalizing cur with
  | nil => rfl
  | cons ch line ih =>
    obtain ⟨hch, hline⟩ := List.forall_mem_cons.1 h
    rw [List.cons_append, splitLinesFrom, if_neg hch, ih hline, List.reverse_cons, List.append_assoc,
      List.singleton_append]

/-- A line before a newline (30_encoding.md R76). -/
theorem splitLinesFrom_line {line : List Char} (h : ∀ ch ∈ line, ch ≠ '\n') (rest : List Char) :
    splitLinesFrom (line ++ '\n' :: rest) [] = line :: splitLinesFrom rest [] := by
  rw [splitLinesFrom_append h, List.append_nil, splitLinesFrom, if_pos rfl, List.reverse_reverse]

/-- A printed instruction is one line (30_encoding.md R83). -/
theorem printInstr_no_newline (i : Instr) : ∀ ch ∈ printInstr i, ch ≠ '\n' := by
  have hspace : ' ' ≠ '\n' := by decide
  rw [printInstr]
  exact List.forall_mem_append.2 ⟨fun ch h => ((mnemonicName_plain _).2 ch h).1,
    List.forall_mem_cons.2 ⟨hspace, List.forall_mem_append.2
      ⟨fun ch h => ((printWord_plain _).2 ch h).1,
        List.forall_mem_cons.2 ⟨hspace, fun ch h => ((printWord_plain _).2 ch h).1⟩⟩⟩⟩

/-- The lines of a listing are its printed instructions. -/
theorem splitLines_printListing (is : List Instr) :
    splitLines (printListing is) = is.map printInstr := by
  rw [splitLines]
  induction is with
  | nil => rfl
  | cons i is ih =>
    rw [printListing, splitLinesFrom_line (printInstr_no_newline i), ih, List.map_cons]

end Sys2Proof.Machine
end

section
/-! PROOFS. What the assembler answers: the encodings of its lines in order, or the first bad line; and
the program it makes as the core fetches it (spec/30_encoding.md R81, R82; 70_reset_and_hazards.md
section 2). -/

namespace Sys2Proof.Machine

variable {c : Config} {n : Nat} {lines : List (List Char)}

/-! ### Assembling lines -/

/-- Lines that parse assemble to the encodings of their instructions in order, and nothing else
assembles (30_encoding.md R81). -/
theorem assembleLines_eq_ok {ws : List Word} : assembleLines c n lines = .ok ws ↔
    ∃ is : List Instr, lines.map parseLine = is.map some ∧ ws = is.flatMap (encode c) := by
  induction lines generalizing n ws with
  | nil =>
    constructor
    · rintro ⟨⟩
      exact ⟨[], rfl, rfl⟩
    · rintro ⟨is, his, rfl⟩
      obtain rfl : is = [] := List.map_eq_nil_iff.1 his.symm
      rfl
  | cons line rest ih =>
    constructor
    · intro h
      rw [assembleLines] at h
      cases hl : parseLine line with
      | none => simp [hl] at h
      | some i =>
        cases hr : assembleLines c (n + 1) rest with
        | error e => simp [hl, hr] at h
        | ok vs =>
          obtain ⟨is, his, rfl⟩ := ih.1 hr
          simp only [hl, hr, Except.ok.injEq] at h
          exact ⟨i :: is, by rw [List.map_cons, List.map_cons, hl, his],
            by rw [← h, List.flatMap_cons]⟩
    · rintro ⟨is, his, rfl⟩
      cases is with
      | nil => cases his
      | cons i is =>
        obtain ⟨hl, hr⟩ := List.cons.inj his
        simp only [assembleLines, hl, ih.2 ⟨is, hr, rfl⟩, List.flatMap_cons]

/-- `k` is the index of the first of the lines that does not parse (30_encoding.md R82). -/
def FirstBadLine (lines : List (List Char)) (k : Nat) : Prop :=
  ∃ line, lines[k]? = some line ∧ parseLine line = none ∧
    ∀ j < k, ∀ l, lines[j]? = some l → parseLine l ≠ none

theorem firstBadLine_cons_of_none {line : List Char} {rest : List (List Char)} {k : Nat}
    (h : parseLine line = none) : FirstBadLine (line :: rest) k ↔ k = 0 := by
  constructor
  · rintro ⟨_, -, -, hbefore⟩
    by_contra hk
    exact hbefore 0 (by omega) line rfl h
  · rintro rfl
    exact ⟨line, rfl, h, fun j hj => absurd hj (Nat.not_lt_zero j)⟩

theorem firstBadLine_cons_of_some {line : List Char} {rest : List (List Char)} {i : Instr} {k : Nat}
    (h : parseLine line = some i) :
    FirstBadLine (line :: rest) k ↔ ∃ k', k = k' + 1 ∧ FirstBadLine rest k' := by
  constructor
  · rintro ⟨bad, hbad, hnone, hbefore⟩
    cases k with
    | zero =>
      obtain rfl : line = bad := Option.some.inj hbad
      exact nomatch h.symm.trans hnone
    | succ k => exact ⟨k, rfl, bad, hbad, hnone, fun j hj l hl => hbefore (j + 1) (by omega) l hl⟩
  · rintro ⟨k, rfl, bad, hbad, hnone, hbefore⟩
    refine ⟨bad, hbad, hnone, fun j hj l hl => ?_⟩
    cases j with
    | zero =>
      obtain rfl : line = l := Option.some.inj hl
      rw [h]
      nofun
    | succ j => exact hbefore j (by omega) l hl

/-- Lines fail to assemble exactly at the first that does not parse (30_encoding.md R82). -/
theorem assembleLines_eq_error {e : SourceError} : assembleLines c n lines = .error e ↔
    ∃ k, e = .parseError (n + k) ∧ FirstBadLine lines k := by
  induction lines generalizing n e with
  | nil => exact iff_of_false nofun fun ⟨k, _, line, h, _⟩ => nomatch h
  | cons line rest ih =>
    cases hl : parseLine line with
    | none =>
      simp only [assembleLines, hl, firstBadLine_cons_of_none hl, Except.error.injEq]
      exact ⟨fun h => ⟨0, h.symm, rfl⟩, fun ⟨k, he, hk⟩ => by rw [he, hk, Nat.add_zero]⟩
    | some i =>
      have hrest : assembleLines c n (line :: rest) = .error e ↔
          assembleLines c (n + 1) rest = .error e := by
        simp only [assembleLines, hl]
        cases assembleLines c (n + 1) rest <;> simp
      rw [hrest, ih]
      constructor
      · rintro ⟨k, rfl, hk⟩
        exact ⟨k + 1, by rw [Nat.add_right_comm, Nat.add_assoc],
          (firstBadLine_cons_of_some hl).2 ⟨k, rfl, hk⟩⟩
      · rintro ⟨_, rfl, hbad⟩
        obtain ⟨k, rfl, hk⟩ := (firstBadLine_cons_of_some hl).1 hbad
        exact ⟨k, by rw [Nat.add_right_comm, Nat.add_assoc], hk⟩

/-! ### Encodings in a row -/

/-- Instructions are three words each (30_encoding.md R60). -/
theorem length_flatMap_encode (c : Config) (is : List Instr) :
    (is.flatMap (encode c)).length = 3 * is.length := by
  induction is with
  | nil => rfl
  | cons i is ih =>
    rw [List.flatMap_cons, List.length_append, ih, List.length_cons, encode, List.length_cons,
      List.length_cons, List.length_cons, List.length_nil]
    omega

/-- Word `j` of instruction `k` stands at index `3 * k + j`. -/
theorem getElem?_flatMap_encode (c : Config) {is : List Instr} {k : Nat} (hk : k < is.length) {j : Nat}
    (hj : j < 3) : (is.flatMap (encode c))[3 * k + j]? = (encode c is[k])[j]? := by
  induction is generalizing k with
  | nil => cases hk
  | cons i is ih =>
    have hlen : (encode c i).length = 3 := rfl
    rw [List.flatMap_cons]
    cases k with
    | zero =>
      rw [List.getElem?_append_left (by omega), Nat.mul_zero, Nat.zero_add]
      rfl
    | succ k =>
      rw [List.getElem?_append_right (by omega), hlen, show 3 * (k + 1) + j - 3 = 3 * k + j by omega]
      exact ih (by simpa using hk)

/-! ### The statements -/

/-- The lines of a listing of base instructions assemble to their encodings. -/
theorem assembleLines_printListing {is : List Instr} (his : ∀ i ∈ is, i.mnemonic ∈ enabled false) :
    assembleLines c n (splitLines (printListing is)) = .ok (is.flatMap (encode c)) := by
  refine assembleLines_eq_ok.2 ⟨is, ?_, rfl⟩
  rw [splitLines_printListing, List.map_map]
  exact List.map_congr_left fun i hi => parseLine_printInstr (his i hi)

/-- Settles O46: every line of the listing parses back, and the output is three words a line. -/
theorem assemblyOfListingIsEncoding : Obligations.AssemblyOfListingIsEncoding := by
  intro c is his
  simp only [assemble, assembleLines_printListing his, length_flatMap_encode]

/-- Settles O47: what assembles is the parse of its lines, and a parse is a base instruction. -/
theorem assembledTextIsThreeWordsPerLine : Obligations.AssembledTextIsThreeWordsPerLine := by
  intro c text ws h
  unfold assemble at h
  split at h
  · cases h
  next vs hvs =>
    split at h
    next hfits =>
      cases h
      obtain ⟨is, his, rfl⟩ := assembleLines_eq_ok.1 hvs
      have hlen : is.length = (splitLines text).length := by
        simpa using (congrArg List.length his).symm
      refine ⟨is, rfl, hlen, by rw [length_flatMap_encode, hlen], hfits, fun i hi => ?_, his⟩
      have hmem : some i ∈ (splitLines text).map parseLine := by rw [his]; exact List.mem_map_of_mem hi
      obtain ⟨line, -, hline⟩ := List.mem_map.1 hmem
      exact mnemonic_of_parseLine hline
    · cases h

/-- A ParseError of the assembler is one of its lines (30_encoding.md R82; the priority is log 9). -/
theorem assemble_eq_parseError {text : List Char} : assemble c text = .error (.parseError n) ↔
    assembleLines c 1 (splitLines text) = .error (.parseError n) := by
  rw [assemble]
  cases assembleLines c 1 (splitLines text) with
  | error e => exact Iff.rfl
  | ok ws =>
    refine iff_of_false (fun h => ?_) nofun
    simp only at h
    split at h <;> cases h

/-- Settles O48: the assembler fails with the first bad line, counted from 1. -/
theorem parseErrorNamesTheFirstBadLine : Obligations.ParseErrorNamesTheFirstBadLine := by
  intro c text n
  rw [assemble_eq_parseError, assembleLines_eq_error]
  constructor
  · rintro ⟨k, h, line, hbad⟩
    exact ⟨k, line, (SourceError.parseError.inj h).trans (Nat.add_comm 1 k), hbad⟩
  · rintro ⟨k, line, rfl, hbad⟩
    exact ⟨k, congrArg SourceError.parseError (Nat.add_comm k 1), line, hbad⟩

/-- The core fetches instruction `k` of a program loaded at 0 at offset `3 * k`. -/
theorem fetches_of_loaded {is : List Instr} (hc : c.WellFormed) (his : ∀ i ∈ is, i.WellFormed c)
    (hfits : 3 * is.length ≤ c.memorySize) {k : Nat} (hk : k < is.length) :
    (({ createSession c with memory := Memory.writeWords [] 0 (is.flatMap (encode c)) } :
      State).setPc (BitVec.ofNat 32 (3 * k))).Fetches is[k] := by
  obtain ⟨-, -, hsize, hmap⟩ := hc
  have hnat : (BitVec.ofNat 32 (3 * k)).toNat = 3 * k := by rw [BitVec.toNat_ofNat]; omega
  have hint : (BitVec.ofNat 32 (3 * k)).toInt = 3 * k := by
    rw [BitVec.toInt_eq_toNat_cond, hnat]
    split <;> omega
  have word {j : Nat} (hj : j < 3) {w : Word} (hw : (encode c is[k])[j]? = some w) :
      Memory.readWord (Memory.writeWords [] 0 (is.flatMap (encode c))) (3 * k + j) = w := by
    rw [← getElem?_flatMap_encode c hk hj] at hw
    obtain ⟨hlt, rfl⟩ := List.getElem?_eq_some_iff.1 hw
    rw [← Memory.readWord_writeWords_inside (m := []) ⟨.nil, nofun⟩ 0 _ hlt, Nat.zero_add]
  refine fetches_of_words ?_ ?_ ?_ ?_ (decode_encoded hmap (his _ (List.getElem_mem hk)))
  · rw [FetchInBounds, State.setPc_pc, hint]
    show (0 : Int) ≤ 3 * k ∧ 3 * k + 2 < (c.memorySize : Int)
    omega
  · rw [State.setPc_pc, hnat]
    exact word (j := 0) (by omega) rfl
  · rw [State.setPc_pc, hnat]
    exact word (j := 1) (by omega) rfl
  · rw [State.setPc_pc, hnat]
    exact word (j := 2) (by omega) rfl

/-- Settles O49: the listing assembles to its encodings, which the launch writes from index 0 on. -/
theorem assembledProgramIsWhatTheCoreDecodes : Obligations.AssembledProgramIsWhatTheCoreDecodes := by
  intro c is hc his hfits
  have hassemble : assemble c (printListing is) = .ok (is.flatMap (encode c)) := by
    rw [assemblyOfListingIsEncoding c is his, if_pos hfits]
  have hlaunch := launch_of_fits (c := c) (ws := is.flatMap (encode c)) (le_refl 0)
    (by rw [length_flatMap_encode]; omega)
  refine ⟨_, by rw [launchText, hassemble]; exact hlaunch, rfl, rfl, fun k hk => ?_⟩
  exact fetches_of_loaded hc (fun i hi => mem_enabled_of_mem_base (his i hi) _) hfits hk

end Sys2Proof.Machine
end
